-- ==== Sys2Proof/Word.lean ====
section
/-! DEFINITION. The machine's words: bytes, the 9-bit program counter, register names. -/

namespace Sys2Proof

/-- An 8-bit unsigned value: a register, a memory cell, an instruction byte (R16, R41, R51). -/
abbrev Byte := BitVec 8

/-- The 9-bit unsigned program counter and every address computed from it (R22). -/
abbrev PcWord := BitVec 9

/-- A general register, R0 to R7 (R16). -/
abbrev Reg := Fin 8

end Sys2Proof
end

