-- ==== Sys2Proof/Config.lean ====
section
/-! DEFINITION. The CORE's fixed parameters (R9). The spec leaves none of them to the model but the host's
line terminator, which is an argument of the host's rendering (Machine/HostInterface.lean). -/

namespace Sys2Proof.Config

/-- `MEM_SIZE`: 256 cells, addressed 0 to 255 inclusive (R9, R35; conflict C1 rejects [0,255)). -/
def memSize : Nat := 256

/-- `NREGS`: eight general registers (R9, R16). -/
def nRegs : Nat := 8

/-- `SP_INDEX`: register 7 is the stack pointer (R9, R19). -/
def spIndex : Reg := 7

/-- `SP_RESET` (R9, R104). -/
def spReset : Byte := 0xF4

/-- `PC_RESET` (R9, R104, R105). -/
def pcReset : PcWord := 0

/-- `IMAGE_BASE`: the host loads the image from address 0 (R9, R96). -/
def imageBase : Nat := 0

/-- What a memory cell that nothing has written holds: 0x00 (R42, R104). Log entry 3. -/
def absentByte : Byte := 0

/-- The default of the OPEN host parameter `LINE_TERMINATOR`: LF (R9, R97). -/
def defaultLineTerminator : List Char := ['\n']

end Sys2Proof.Config
end

