-- ==== Sys2Proof/Machine/State.lean ====
section
/-! DEFINITION. The whole architectural state of the CORE (R15), as plain data, and its reset value (R104). -/

namespace Sys2Proof.Machine

open Sys2Proof

/-- The condition flags (R24). Only CMP writes them. -/
structure Flags where
  /-- Less-Than. -/
  l : Bool
  /-- Greater-Than. -/
  g : Bool
  /-- Equal. -/
  e : Bool
  deriving DecidableEq, Repr

/-- The run state (R29). `halted` and `faulted` are terminal: only a reset leaves them. -/
inductive RunState where
  | load
  | running
  | halted
  | faulted
  deriving DecidableEq, Repr

/-- The error kinds of R88. `loadError` is raised by the host's file loader only, never by the CORE. -/
inductive ErrorKind where
  | loadError
  | addressError
  | unknownOpcodeError
  | mathError
  | unsupportedOperationError
  deriving DecidableEq, Repr

/-- The offending value of a fatal error (R30, R88). -/
inductive FaultInfo where
  /-- MEM with the 9-bit address. -/
  | mem (addr : PcWord)
  /-- REG with the 8-bit operand byte. -/
  | reg (index : Byte)
  /-- OP with the 8-bit opcode. -/
  | op (opcode : Byte)
  /-- DIV. -/
  | div
  /-- Nothing recorded. -/
  | none
  deriving DecidableEq, Repr

/-- `E(info)` of R12's `raise E(info)`. -/
structure FatalError where
  kind : ErrorKind
  info : FaultInfo
  deriving DecidableEq, Repr

/-- The fault record `(code, fpc, info)` of R30. The code is held as the kind it numbers: `FaultRecord.code` is R88's
number (Machine/Ops.lean). -/
structure FaultRecord where
  kind : ErrorKind
  fpc : PcWord
  info : FaultInfo
  deriving DecidableEq, Repr

/-- Memory: the cells that differ from `Config.absentByte`, addresses strictly rising (Machine/Memory.lean). -/
abbrev Memory := List Host.Cell

/-- The complete architectural state (R15): "nothing else is state". -/
structure State where
  /-- `mem[0..255]` (R34). -/
  mem : Memory
  /-- `x[0..7]`, `x[7]` being SP (R16, R19). -/
  regs : Vector Byte 8
  /-- `pc`, 9 bits (R21, R22). -/
  pc : PcWord
  /-- `FL.L`, `FL.G`, `FL.E` (R24). -/
  fl : Flags
  /-- `state` (R29). -/
  runState : RunState
  /-- `fault` (R30). -/
  fault : Option FaultRecord
  /-- `out`, oldest first (R31). -/
  out : List Byte
  deriving DecidableEq, Repr

/-- The stops of a CORE that has ended its run. Fatal errors of the spec are NOT here: their entry is a next state
(R90). -/
inductive Fault where
  /-- Raised by `step` in HALTED: no instruction executes there (R29, R70). Safe: the spec gives no step. -/
  | coreHalted
  /-- Raised by `step` in FAULTED: no instruction executes there (R29, R91). Safe: the spec gives no step. -/
  | coreFaulted
  deriving DecidableEq, Repr

/-- Moves the spec gives no meaning. -/
inductive Refusal where
  /-- Raised by an arm of `exec` whose instruction has no meaning yet; no arm does. Safe. -/
  | notModelled (mnemonic : String)
  /-- Raised by `step` in LOAD: the CORE steps only after the host's Run (R70, R95). Safe. -/
  | runNotStarted
  /-- Raised by the host's LoadByte outside LOAD (R95: "a model refuses them"). Safe. -/
  | loadByteOutsideLoad
  /-- Raised by the host's Run outside LOAD (R95: "a model refuses them"). Safe. -/
  | runOutsideLoad
  deriving DecidableEq, Repr

/-- The registers after reset: R0 to R6 0x00, R7 0xF4 (R104). Log entry 3. -/
def resetRegs : Vector Byte 8 := #v[0, 0, 0, 0, 0, 0, 0, Config.spReset]

/-- The machine right after `Reset()` (R104): memory all 0x00, so nothing is listed. -/
def State.reset : State where
  mem := []
  regs := resetRegs
  pc := Config.pcReset
  fl := ⟨false, false, false⟩
  runState := .load
  fault := none
  out := []

end Sys2Proof.Machine
end

