-- ==== Sys2Proof/Machine/Memory.lean ====
section
/-! DEFINITION. The 256 cells of memory (R34, R35, R41) as a canonical list of cells. Bounds are checked by the
operations of Machine/Ops.lean. -/

namespace Sys2Proof.Machine

open Sys2Proof

/-- The canonical form from address `lo` on: addresses strictly rising and inside the 256 cells, and no cell listed
that holds what an unlisted one reads as. -/
def Memory.wfFrom (lo : Nat) : Memory → Bool
  | [] => true
  | (k, w) :: m =>
    decide (lo ≤ k) && decide (k < Config.memSize) && w != Config.absentByte && Memory.wfFrom (k + 1) m

/-- Memory is in canonical form, so that equal memories are equal lists. -/
def Memory.wf (m : Memory) : Bool := Memory.wfFrom 0 m

/-- The value of cell `a`: the value last written, or the reset content (R41, R42). -/
def Memory.read : Memory → Nat → Byte
  | [], _ => Config.absentByte
  | (k, w) :: m, a => if a = k then w else Memory.read m a

/-- Memory with cell `a` not listed. -/
def Memory.removeCell (m : Memory) (a : Nat) : Memory := m.filter (fun c => c.1 != a)

/-- Memory with the cell `(a, v)` listed in front of the first greater address. -/
def Memory.insertCell : Memory → Nat → Byte → Memory
  | [], a, v => [(a, v)]
  | (k, w) :: m, a, v => if a < k then (a, v) :: (k, w) :: m else (k, w) :: Memory.insertCell m a v

/-- Memory with cell `a` holding `v` and every other cell as before (R41), in canonical form. -/
def Memory.write (m : Memory) (a : Nat) (v : Byte) : Memory :=
  if v = Config.absentByte then m.removeCell a else (m.removeCell a).insertCell a v

end Sys2Proof.Machine
end

