-- ==== Sys2Proof/Machine/Ops.lean ====
section
/-! DEFINITION. The named operations over registers, memory, the stack, the output and the run state that the
meanings share, and the entry into a fatal error (R12, R13, R46, R90). -/

namespace Sys2Proof.Machine

open Sys2Proof

/-- `trunc_8(v) = v mod 256` (R10). -/
def trunc8 (n : Nat) : Byte := BitVec.ofNat 8 n

/-- `zext_9(v)` (R10, R82). -/
def zext9 (b : Byte) : PcWord := b.setWidth 9

/-- `AddressError(MEM, addr)` (R12, R88). -/
def addressMem (addr : PcWord) : FatalError := ⟨.addressError, .mem addr⟩

/-- `AddressError(REG, b)` (R12, R18; conflict C2). -/
def addressReg (b : Byte) : FatalError := ⟨.addressError, .reg b⟩

/-- `UnknownOpcodeError(OP, op)` (R56, R88). -/
def unknownOpcode (op : Byte) : FatalError := ⟨.unknownOpcodeError, .op op⟩

/-- `MathError(DIV)` (R65, R88). -/
def mathDiv : FatalError := ⟨.mathError, .div⟩

/-- `UnsupportedOperationError`, with nothing recorded (R67, R88). -/
def unsupportedOperation : FatalError := ⟨.unsupportedOperationError, .none⟩

/-- The numeric code of an error kind (R88, decision D7). -/
def ErrorKind.code : ErrorKind → Nat
  | .loadError => 1
  | .addressError => 2
  | .unknownOpcodeError => 3
  | .mathError => 4
  | .unsupportedOperationError => 5

/-- `code` of a fault record: the number of its kind (R30, R88). -/
def FaultRecord.code (r : FaultRecord) : Nat := r.kind.code

/-- The code of `fault` (R88, decision D7): 0 where there is no fault, else the record's. -/
def faultCode : Option FaultRecord → Nat
  | none => 0
  | some r => r.code

/-- ENTRY INTO A FATAL ERROR (R90), recorded at address `fpc`: the fault record is written and the CORE is FAULTED;
every other piece of state keeps its value. There is no return from it (R91). -/
def State.raiseAt (fpc : PcWord) (e : FatalError) (s : State) : State :=
  { s with runState := .faulted, fault := some ⟨e.kind, fpc, e.info⟩ }

/-- A fatal error raised by the instruction at `pc` (R90): `pc` keeps that instruction's address. -/
def State.raiseFatal (e : FatalError) (s : State) : State := s.raiseAt s.pc e

/-- An instruction as a transaction (R13): all its writes, or, when a check raises, none of them and the entry into
the fatal error. -/
def transaction (s : State) : Except FatalError State → Host.Outcome State Fault Refusal
  | .ok s' => .next s'
  | .error e => .next (s.raiseFatal e)

/-- `x[i]` read (R11). -/
def State.getReg (r : Reg) (s : State) : Byte := s.regs[r]

/-- `x[i] <- v` (R11, R17). -/
def State.setReg (r : Reg) (v : Byte) (s : State) : State := { s with regs := s.regs.set r v }

/-- `SP`, another name for `x[7]` (R11, R19). -/
def State.sp (s : State) : Byte := s.getReg Config.spIndex

/-- `SP <- v`. -/
def State.setSp (v : Byte) (s : State) : State := s.setReg Config.spIndex v

/-- `pc <- target` (R11). -/
def State.setPc (target : PcWord) (s : State) : State := { s with pc := target }

/-- The sequential advance by the instruction's byte length (R21, R52). -/
def State.advance (n : Nat) (s : State) : State := s.setPc (s.pc + BitVec.ofNat 9 n)

/-- A redirect to the 8-bit value `target`, zero-extended to the 9-bit pc (R22, R82). -/
def State.jumpTo (target : Byte) (s : State) : State := s.setPc (zext9 target)

/-- All three flags written together (R25). -/
def State.setFlags (f : Flags) (s : State) : State := { s with fl := f }

/-- `Emit(v)`: appends the value to `out` (R12, R31). -/
def State.emit (v : Byte) (s : State) : State := { s with out := s.out ++ [v] }

/-- `state <- ...` (R11). -/
def State.setRunState (r : RunState) (s : State) : State := { s with runState := r }

/-- Cell `a`, at an address that an 8-bit value gives and that therefore exists (R37). -/
def State.readCell (a : Byte) (s : State) : Byte := s.mem.read a.toNat

/-- Cell `a` written, at an address that an 8-bit value gives (R37). -/
def State.writeCell (a : Byte) (v : Byte) (s : State) : State := { s with mem := s.mem.write a.toNat v }

/-- The bounds check of every memory access: an address above 255 raises AddressError(MEM) (R12, R36). -/
def checkAddr (addr : PcWord) : Except FatalError Byte :=
  if 255 < addr.toNat then .error (addressMem addr) else .ok (addr.setWidth 8)

/-- `MemRead(addr, 1)` (R12). -/
def State.memRead (addr : PcWord) (s : State) : Except FatalError Byte :=
  match checkAddr addr with
  | .ok a => .ok (s.readCell a)
  | .error e => .error e

/-- `MemWrite(addr, 1, v)` (R12). -/
def State.memWrite (addr : PcWord) (v : Byte) (s : State) : Except FatalError State :=
  match checkAddr addr with
  | .ok a => .ok (s.writeCell a v)
  | .error e => .error e

/-- The stack pointer a push writes through: `trunc_8(SP - 1)` (R46). -/
def State.pushAddr (s : State) : Byte := s.sp - 1

/-- A push (R46): SP is decremented, then the value is written at the new SP. SP wraps and nothing is checked. -/
def State.pushByte (v : Byte) (s : State) : State := (s.setSp s.pushAddr).writeCell s.pushAddr v

/-- What a pop reads: the cell at the current SP (R46). -/
def State.popValue (s : State) : Byte := s.readCell s.sp

/-- A step asked for in LOAD: the CORE steps only after the host's Run (R70, R95). Log entry 4. -/
def State.stepInLoad (_ : State) : Host.Outcome State Fault Refusal := .refused .runNotStarted

/-- A step asked for in HALTED, where no instruction executes (R29, R70). Log entry 4. -/
def State.stepInHalted (_ : State) : Host.Outcome State Fault Refusal := .fault .coreHalted

/-- A step asked for in FAULTED, where no instruction executes (R29, R70, R91). Log entry 4. -/
def State.stepInFaulted (_ : State) : Host.Outcome State Fault Refusal := .fault .coreFaulted

end Sys2Proof.Machine
end

