-- ==== Sys2Proof/Machine/Flags.lean ====
section
/-! DEFINITION. The flags of a comparison, the branch condition, and the byte the host inspects (R24 to R27, R66). -/

namespace Sys2Proof.Machine

open Sys2Proof

/-- The flags after comparing `x` with `y` as unsigned numbers: exactly one is set (R25, R66). That L means "first
operand less" is the spec's decision D6. -/
def compareFlags (x y : Byte) : Flags where
  l := decide (x.toNat < y.toNat)
  g := decide (y.toNat < x.toNat)
  e := decide (x.toNat = y.toNat)

/-- `FLbyte = 0b00000 ++ L ++ G ++ E`, for the host's inspection only (R27, decision D5). -/
def Flags.toByte (f : Flags) : Byte :=
  (0 : BitVec 5) ++ BitVec.ofBool f.l ++ BitVec.ofBool f.g ++ BitVec.ofBool f.e

end Sys2Proof.Machine
end

