-- ==== Sys2Proof/Machine/Operands.lean ====
section
/-! DEFINITION. The operand forms: a register index byte and the registers PUSH, CALL and POP see (R12, R54, D23).
LDI's immediate is the operand byte itself, with no extension, scaling or shift (R54). -/

namespace Sys2Proof.Machine

open Sys2Proof

/-- `RegIdx(b)` (R12): the register an operand byte names, or AddressError(REG, b) (R18). -/
def regIdx (b : Byte) : Except FatalError Reg :=
  if h : b.toNat < 8 then .ok ⟨b.toNat, h⟩ else .error (addressReg b)

/-- A register read after a push's decrement of SP: for R7 the decremented SP (R74, R79, decision D23). -/
def State.readAfterDecrement (r : Reg) (s : State) : Byte :=
  if r = Config.spIndex then s.pushAddr else s.getReg r

/-- The register writes of a pop of value `v` into register `r`: the register first, then SP is incremented, so POP R7
leaves the popped value plus 1 (R80, decision D23). -/
def State.popInto (r : Reg) (v : Byte) (s : State) : State :=
  if r = Config.spIndex then s.setSp (v + 1) else (s.setReg r v).setSp (s.sp + 1)

end Sys2Proof.Machine
end

