-- ==== Sys2Proof/Machine/Arith.lean ====
section
/-! DEFINITION. The ALU (R61 to R67) and the two instructions that reach it, MUL and CMP (R68, R69). -/

namespace Sys2Proof.Machine

open Sys2Proof

/-- The ALU's operation kinds (R61). `other` stands for a kind outside the five, the source's default-error case
(R67); no instruction selects it. -/
inductive AluKind where
  | add
  | sub
  | mul
  | div
  | cmp
  | other
  deriving DecidableEq, Repr

/-- `ALU(op, a, b)` (R61): the state with the operation's writes made, or the error it raises. ADD (R62), SUB (R63),
MUL (R64), DIV (R65, conflict C3), CMP (R66), any other kind (R67). -/
def alu (kind : AluKind) (a b : Reg) (s : State) : Except FatalError State :=
  match kind with
  | .add => .ok (s.setReg a (trunc8 ((s.getReg a).toNat + (s.getReg b).toNat)))
  | .sub => .ok (s.setReg a (trunc8 (256 + (s.getReg a).toNat - (s.getReg b).toNat)))
  | .mul => .ok (s.setReg a (trunc8 ((s.getReg a).toNat * (s.getReg b).toNat)))
  | .div =>
    if s.getReg b = 0 then .error mathDiv
    else .ok (s.setReg a (trunc8 ((s.getReg a).toNat / (s.getReg b).toNat)))
  | .cmp => .ok (s.setFlags (compareFlags (s.getReg a) (s.getReg b)))
  | .other => .error unsupportedOperation

/-- An ALU instruction over two register operand bytes: both indices checked in operand order, the operation made,
three bytes passed (R68, R69). -/
def aluInstruction (kind : AluKind) (a b : Byte) (s : State) : Except FatalError State := do
  let ra ← regIdx a
  let rb ← regIdx b
  let s' ← alu kind ra rb s
  pure (s'.advance 3)

/-- MUL a, b (R68). -/
def execMul (a b : Byte) (s : State) : Host.Outcome State Fault Refusal :=
  transaction s (aluInstruction .mul a b s)

/-- CMP a, b (R69). -/
def execCmp (a b : Byte) (s : State) : Host.Outcome State Fault Refusal :=
  transaction s (aluInstruction .cmp a b s)

end Sys2Proof.Machine
end

