-- ==== Sys2Proof/Machine/Branch.lean ====
section
/-! DEFINITION. JMP, JEQ and JNE (R82 to R85). -/

namespace Sys2Proof.Machine

open Sys2Proof

/-- A two-byte jump to the address in a register, taken or passed by. The index is checked either way (R84, decision
D9). -/
def jumpIf (taken : Bool) (r : Byte) (s : State) : Except FatalError State := do
  let i ← regIdx r
  pure (if taken then s.jumpTo (s.getReg i) else s.advance 2)

/-- JMP r (R83). -/
def execJmp (r : Byte) (s : State) : Host.Outcome State Fault Refusal :=
  transaction s (jumpIf true r s)

/-- JEQ r (R84): taken when E is set. -/
def execJeq (r : Byte) (s : State) : Host.Outcome State Fault Refusal :=
  transaction s (jumpIf s.fl.e r s)

/-- JNE r (R85): taken when E is clear. -/
def execJne (r : Byte) (s : State) : Host.Outcome State Fault Refusal :=
  transaction s (jumpIf (!s.fl.e) r s)

end Sys2Proof.Machine
end

