-- ==== Sys2Proof/Machine/Control.lean ====
section
/-! DEFINITION. HLT, CALL and RET (R73 to R75). -/

namespace Sys2Proof.Machine

open Sys2Proof

/-- HLT (R73): the CORE is HALTED and `pc` keeps the address of the HLT byte (decision D10). -/
def execHlt (s : State) : Host.Outcome State Fault Refusal :=
  transaction s (pure (s.setRunState .halted))

/-- The return address of a CALL at `pc`, or the AddressError of one that does not fit memory (R74, decision D11). -/
def returnAddress (s : State) : Except FatalError Byte := checkAddr (s.pc + 2)

/-- CALL r (R74): the return address is pushed, then the register is read (decision D23). -/
def execCall (r : Byte) (s : State) : Host.Outcome State Fault Refusal :=
  transaction s do
    let i ← regIdx r
    let ret ← returnAddress s
    pure ((s.pushByte ret).jumpTo (s.readAfterDecrement i))

/-- RET (R75): nothing checks that a CALL pushed the byte popped. -/
def execRet (s : State) : Host.Outcome State Fault Refusal :=
  transaction s (pure ((s.setSp (s.sp + 1)).jumpTo s.popValue))

end Sys2Proof.Machine
end

