-- ==== Sys2Proof/Machine/Data.lean ====
section
/-! DEFINITION. LDI, PRN, PUSH and POP (R77 to R80). -/

namespace Sys2Proof.Machine

open Sys2Proof

/-- LDI r, imm (R77). -/
def execLdi (r imm : Byte) (s : State) : Host.Outcome State Fault Refusal :=
  transaction s do
    let i ← regIdx r
    pure ((s.setReg i imm).advance 3)

/-- PRN r (R78): one output event, made in the step itself (R97). -/
def execPrn (r : Byte) (s : State) : Host.Outcome State Fault Refusal :=
  transaction s do
    let i ← regIdx r
    pure ((s.emit (s.getReg i)).advance 2)

/-- PUSH r (R79): the register is read after the decrement of SP (decision D23). -/
def execPush (r : Byte) (s : State) : Host.Outcome State Fault Refusal :=
  transaction s do
    let i ← regIdx r
    pure ((s.pushByte (s.readAfterDecrement i)).advance 2)

/-- POP r (R80). The popped cell keeps its value. -/
def execPop (r : Byte) (s : State) : Host.Outcome State Fault Refusal :=
  transaction s do
    let i ← regIdx r
    pure ((s.popInto i s.popValue).advance 2)

end Sys2Proof.Machine
end

