-- ==== Sys2Proof/Syntax.lean ====
section
/-! DEFINITION. The twelve instructions (R2), one constructor per row of the opcode table. -/

namespace Sys2Proof

/-- An instruction with its operand BYTES. A register operand is a whole byte: every value decodes, and one that
names no register is detected when the instruction executes (R54, R57). -/
inductive Instr where
  /-- HLT, 0x01 (R73). -/
  | hlt
  /-- RET, 0x11 (R75). -/
  | ret
  /-- PUSH r, 0x45 (R79). -/
  | push (r : Byte)
  /-- POP r, 0x46 (R80). -/
  | pop (r : Byte)
  /-- PRN r, 0x47 (R78). -/
  | prn (r : Byte)
  /-- CALL r, 0x50 (R74). -/
  | call (r : Byte)
  /-- JMP r, 0x54 (R83). -/
  | jmp (r : Byte)
  /-- JEQ r, 0x55 (R84). -/
  | jeq (r : Byte)
  /-- JNE r, 0x56 (R85). -/
  | jne (r : Byte)
  /-- LDI r, imm: 0x82 (R77). -/
  | ldi (r imm : Byte)
  /-- MUL a, b: 0xA2 (R68). -/
  | mul (a b : Byte)
  /-- CMP a, b: 0xA7 (R69). -/
  | cmp (a b : Byte)
  deriving DecidableEq, Repr

end Sys2Proof
end

