-- ==== Sys2Proof/Decode.lean ====
section
/-! DEFINITION. The instruction formats, the opcode map, the decoder (total on any bytes, refusing by name) and the
encoder (30_encoding.md). -/

namespace Sys2Proof

/-- The four formats of R51. -/
inductive Format where
  | f0
  | f1r
  | f2rr
  | f2ri
  deriving DecidableEq, Repr

/-- How many bytes an instruction of the format has, the opcode included (R51, R52). -/
def Format.length : Format → Nat
  | .f0 => 1
  | .f1r => 2
  | .f2rr => 3
  | .f2ri => 3

/-- The twelve operations of R2. -/
inductive Opcode where
  | hlt | ret | push | pop | prn | call | jmp | jeq | jne | ldi | mul | cmp
  deriving DecidableEq, Repr

/-- One row of R55's opcode map. -/
structure OpcodeRow where
  byte : Byte
  op : Opcode
  format : Format
  deriving DecidableEq, Repr

/-- R55's opcode map, in the table's order. It is immutable (R71). -/
def opcodeTable : List OpcodeRow := [
  ⟨0x01, .hlt, .f0⟩,
  ⟨0x11, .ret, .f0⟩,
  ⟨0x45, .push, .f1r⟩,
  ⟨0x46, .pop, .f1r⟩,
  ⟨0x47, .prn, .f1r⟩,
  ⟨0x50, .call, .f1r⟩,
  ⟨0x54, .jmp, .f1r⟩,
  ⟨0x55, .jeq, .f1r⟩,
  ⟨0x56, .jne, .f1r⟩,
  ⟨0x82, .ldi, .f2ri⟩,
  ⟨0xA2, .mul, .f2rr⟩,
  ⟨0xA7, .cmp, .f2rr⟩]

/-- The operation an opcode byte selects: an exact match of all 8 bits (R55). `none`: the byte is illegal (R56). -/
def Opcode.ofByte (b : Byte) : Option Opcode :=
  (opcodeTable.find? (fun row => row.byte == b)).map OpcodeRow.op

/-- Why bytes do not decode. -/
inductive DecodeError where
  /-- There is no opcode byte. -/
  | noOpcode
  /-- The opcode byte is none of the twelve (R56). -/
  | unknownOpcode (op : Byte)
  /-- The operand byte at this offset from the opcode (1 or 2) is missing. -/
  | missingOperand (offset : Nat)
  deriving DecidableEq, Repr

/-- One operand byte, at offset 1 (format F1R). -/
def oneOperand (mk : Byte → Instr) : List Byte → Except DecodeError (Instr × List Byte)
  | [] => .error (.missingOperand 1)
  | r :: rest => .ok (mk r, rest)

/-- Two operand bytes, at offsets 1 and 2 (formats F2RR and F2RI). -/
def twoOperands (mk : Byte → Byte → Instr) : List Byte → Except DecodeError (Instr × List Byte)
  | [] => .error (.missingOperand 1)
  | [_] => .error (.missingOperand 2)
  | a :: b :: rest => .ok (mk a b, rest)

/-- The operand bytes of an operation, in encoding order (R51, R54). -/
def decodeOperands : Opcode → List Byte → Except DecodeError (Instr × List Byte)
  | .hlt, bytes => .ok (.hlt, bytes)
  | .ret, bytes => .ok (.ret, bytes)
  | .push, bytes => oneOperand .push bytes
  | .pop, bytes => oneOperand .pop bytes
  | .prn, bytes => oneOperand .prn bytes
  | .call, bytes => oneOperand .call bytes
  | .jmp, bytes => oneOperand .jmp bytes
  | .jeq, bytes => oneOperand .jeq bytes
  | .jne, bytes => oneOperand .jne bytes
  | .ldi, bytes => twoOperands .ldi bytes
  | .mul, bytes => twoOperands .mul bytes
  | .cmp, bytes => twoOperands .cmp bytes

/-- The instruction at the front of a list of bytes, with the bytes after it. The opcode is looked at before any
operand byte (R55, R58, R92). -/
def decode : List Byte → Except DecodeError (Instr × List Byte)
  | [] => .error .noOpcode
  | b :: rest =>
    match Opcode.ofByte b with
    | none => .error (.unknownOpcode b)
    | some op => decodeOperands op rest

/-- The operation of an instruction. -/
def Instr.opcode : Instr → Opcode
  | .hlt => .hlt
  | .ret => .ret
  | .push _ => .push
  | .pop _ => .pop
  | .prn _ => .prn
  | .call _ => .call
  | .jmp _ => .jmp
  | .jeq _ => .jeq
  | .jne _ => .jne
  | .ldi _ _ => .ldi
  | .mul _ _ => .mul
  | .cmp _ _ => .cmp

/-- An instruction's format (R51's last column). -/
def Instr.format : Instr → Format
  | .hlt => .f0
  | .ret => .f0
  | .push _ => .f1r
  | .pop _ => .f1r
  | .prn _ => .f1r
  | .call _ => .f1r
  | .jmp _ => .f1r
  | .jeq _ => .f1r
  | .jne _ => .f1r
  | .ldi _ _ => .f2ri
  | .mul _ _ => .f2rr
  | .cmp _ _ => .f2rr

/-- How many bytes an instruction has (R52). -/
def Instr.length (i : Instr) : Nat := i.format.length

/-- The bytes of an instruction, opcode first (R51, R55). -/
def encode : Instr → List Byte
  | .hlt => [0x01]
  | .ret => [0x11]
  | .push r => [0x45, r]
  | .pop r => [0x46, r]
  | .prn r => [0x47, r]
  | .call r => [0x50, r]
  | .jmp r => [0x54, r]
  | .jeq r => [0x55, r]
  | .jne r => [0x56, r]
  | .ldi r imm => [0x82, r, imm]
  | .mul a b => [0xA2, a, b]
  | .cmp a b => [0xA7, a, b]

/-- Byte `k` of a number whose low `nbits` bits are an instruction: byte 0 is bits 7..0, byte 1 bits 15..8. Bits
from `nbits` on are 0. -/
def tableByte (nbits w k : Nat) : Byte := BitVec.ofNat 8 ((w % 2 ^ nbits) / 2 ^ (8 * k))

/-- The three bytes (the longest instruction) that a table word stands for, in fetch order. -/
def tableBytes (nbits w : Nat) : List Byte :=
  [tableByte nbits w 0, tableByte nbits w 1, tableByte nbits w 2]

/-- The instruction the decoder reads from a table word. -/
def decodeTableWord (nbits w : Nat) : Option Instr :=
  match decode (tableBytes nbits w) with
  | .ok (i, _) => some i
  | .error _ => none

end Sys2Proof
end

