-- ==== Sys2Proof/Machine/Fetch.lean ====
section
/-! DEFINITION. Fetching the instruction at `pc` (R39, R70, R92), and placing one there (for `withFetchWord`). -/

namespace Sys2Proof.Machine

open Sys2Proof

/-- The bytes fetched at `addr`, `addr + 1`, ... (`Fetch(addr) = MemRead(addr, 1)`, R12): at most `n` of them, up to the
first fetch that raises. Reads have no side effects (R41), so fetching a byte the instruction does not own changes
nothing. -/
def State.bytesFrom (s : State) : PcWord → Nat → List Byte
  | _, 0 => []
  | addr, n + 1 =>
    match s.memRead addr with
    | .ok b => b :: s.bytesFrom (addr + 1) n
    | .error _ => []

/-- The bytes an instruction at `pc` can own: at most three (R51). -/
def State.fetchWindow (s : State) : List Byte := s.bytesFrom s.pc 3

/-- The error of a fetch that gives no instruction: the opcode fetch at `pc`, the opcode itself, or the first operand
fetch above 255 (R12, R70, R92). -/
def State.fetchError (s : State) : DecodeError → FatalError
  | .noOpcode => addressMem s.pc
  | .unknownOpcode op => unknownOpcode op
  | .missingOperand k => addressMem (s.pc + BitVec.ofNat 9 k)

/-- The instruction at `pc`, or the first error of fetching and decoding it (R92, steps 1 to 3). -/
def State.fetchInstr (s : State) : Except FatalError Instr :=
  match decode s.fetchWindow with
  | .ok (i, _) => .ok i
  | .error e => .error (s.fetchError e)

/-- How many bytes the instruction at the front of `bytes` has; 1 for an opcode byte that is illegal. -/
def frontLength (bytes : List Byte) : Nat :=
  match decode bytes with
  | .ok (i, _) => i.length
  | .error _ => 1

/-- The bytes stored from address `addr` on, as far as memory exists. -/
def State.storeBytes : Nat → List Byte → State → State
  | _, [], s => s
  | addr, b :: rest, s =>
    State.storeBytes (addr + 1) rest
      (if addr < Config.memSize then { s with mem := s.mem.write addr b } else s)

/-- `pc`, or address 0 where an instruction of `n` bytes at `pc` would not lie inside memory. Log entry 5. -/
def State.placePc (n : Nat) (s : State) : PcWord :=
  if s.pc.toNat + n ≤ Config.memSize then s.pc else Config.pcReset

/-- The CORE RUNNING, with `bytes` stored where it fetches next. It stands for the host's load of a program and its
Run (R95, R107). Log entry 5. -/
def State.placeInstruction (bytes : List Byte) (s : State) : State :=
  let pc := s.placePc (frontLength bytes)
  State.storeBytes pc.toNat bytes ((s.setPc pc).setRunState .running)

end Sys2Proof.Machine
end

