-- ==== Sys2Proof/Machine/Step.lean ====
section
/-! DEFINITION. One step of the CORE (R70), and the placing of an instruction where the next step fetches. -/

namespace Sys2Proof.Machine

open Sys2Proof

/-- `Step()` (R70): exactly one instruction, atomically, and only in RUNNING. -/
def step (s : State) : Host.Outcome State Fault Refusal :=
  match s.runState with
  | .running =>
    match s.fetchInstr with
    | .ok i => exec i s
    | .error e => .next (s.raiseFatal e)
  | .load => s.stepInLoad
  | .halted => s.stepInHalted
  | .faulted => s.stepInFaulted

/-- `s` with the instruction of a table word placed so that the very next step fetches and runs it. Log entry 5. -/
def State.withFetchWord (s : State) (nbits w : Nat) : State :=
  s.placeInstruction (tableBytes nbits w)

end Sys2Proof.Machine
end

