-- ==== Sys2Proof/Machine/HostInterface.lean ====
section
/-! DEFINITION. The host's operations on the CORE (R95 to R97, R107): Reset, LoadByte, Run, Inspect and the rendering of
the output. -/

namespace Sys2Proof.Machine

open Sys2Proof

/-- `Reset()`, allowed in any state: everything goes back to its reset value (R95, R104, R106). -/
def hostReset (_ : State) : State := State.reset

/-- `LoadByte(addr, b)` (R96). An address above 255 faults with the load address as the record's `fpc` (R30). Log
entry 6: the address is one the fault record can hold. -/
def loadByte (addr : PcWord) (b : Byte) (s : State) : Host.Outcome State Fault Refusal :=
  match s.runState with
  | .load =>
    match s.memWrite addr b with
    | .ok s' => .next s'
    | .error e => .next (s.raiseAt addr e)
  | .running => .refused .loadByteOutsideLoad
  | .halted => .refused .loadByteOutsideLoad
  | .faulted => .refused .loadByteOutsideLoad

/-- The first effect of `Run()`: the CORE goes from LOAD to RUNNING (R95). -/
def startRun (s : State) : Host.Outcome State Fault Refusal :=
  match s.runState with
  | .load => .next (s.setRunState .running)
  | .running => .refused .runOutsideLoad
  | .halted => .refused .runOutsideLoad
  | .faulted => .refused .runOutsideLoad

/-- At most `n` steps, as long as the CORE is RUNNING (R72). -/
def runWhileRunning : Nat → State → State
  | 0, s => s
  | n + 1, s =>
    if s.runState = .running then
      match step s with
      | .next s' => runWhileRunning n s'
      | .fault _ => s
      | .refused _ => s
    else s

/-- `Run()` observed for at most `n` steps (R95). A run that has not ended is still RUNNING in the state given; one that
never ends has no final state, whatever `n` (R72). Log entry 7. -/
def hostRun (n : Nat) (s : State) : Host.Outcome State Fault Refusal :=
  match startRun s with
  | .next s' => .next (runWhileRunning n s')
  | .fault f => .fault f
  | .refused r => .refused r

/-- The host's load of bytes at `addr`, `addr + 1`, ..., which ends at the first byte that faults (R96). -/
def loadBytesFrom : Nat → List Byte → State → Host.Outcome State Fault Refusal
  | _, [], s => .next s
  | addr, b :: rest, s =>
    match loadByte (BitVec.ofNat 9 addr) b s with
    | .next s' => if s'.runState = .load then loadBytesFrom (addr + 1) rest s' else .next s'
    | .fault f => .fault f
    | .refused r => .refused r

/-- The load of a program image from address 0 (R44, R96). -/
def loadImage (image : List Byte) (s : State) : Host.Outcome State Fault Refusal :=
  loadBytesFrom Config.imageBase image s

/-- The boot sequence (R107): Reset, the load of the image, Run's start. -/
def boot (image : List Byte) (s : State) : Host.Outcome State Fault Refusal :=
  match loadImage image (hostReset s) with
  | .next s' => startRun s'
  | .fault f => .fault f
  | .refused r => .refused r

/-- The run state's encoding for inspection (R29). -/
def RunState.code : RunState → Nat
  | .load => 0
  | .running => 1
  | .halted => 2
  | .faulted => 3

/-- `fault` as the host sees it: R88's code, which is 0 where there is no fault, with what R30 records beside it. -/
structure FaultReport where
  code : Nat
  fpc : Option PcWord
  info : FaultInfo
  deriving DecidableEq, Repr

/-- The report of `fault` (R30, R88): no address and no information beside code 0. -/
def faultReport (fault : Option FaultRecord) : FaultReport where
  code := faultCode fault
  fpc := fault.map FaultRecord.fpc
  info := (fault.map FaultRecord.info).getD .none

/-- What `Inspect()` returns (R95). -/
structure Inspection where
  regs : Vector Byte 8
  pc : PcWord
  flByte : Byte
  mem : Memory
  stateCode : Nat
  fault : FaultReport
  out : List Byte
  deriving DecidableEq, Repr

/-- `Inspect()`, allowed in any state, with no side effect (R95; the flags packed as R27 says, the run state and the
fault as the numbers of R29 and R88). -/
def inspect (s : State) : Inspection where
  regs := s.regs
  pc := s.pc
  flByte := s.fl.toByte
  mem := s.mem
  stateCode := s.runState.code
  fault := faultReport s.fault
  out := s.out

/-- The decimal digit of `n` modulo 10. -/
def digitChar (n : Nat) : Char := Char.ofNat (48 + n % 10)

/-- A byte's unsigned decimal digits: no sign, no leading zeros, `0` for zero (R97). -/
def decimalDigits (v : Byte) : List Char :=
  let n := v.toNat
  if n < 10 then [digitChar n]
  else if n < 100 then [digitChar (n / 10), digitChar n]
  else [digitChar (n / 100), digitChar (n / 10), digitChar n]

/-- What the host writes for an output list: each value's digits and the line terminator, in order (R97). The
terminator is the OPEN host parameter, default `Config.defaultLineTerminator`. -/
def renderOutput (lineTerminator : List Char) (out : List Byte) : List Char :=
  out.flatMap (fun v => decimalDigits v ++ lineTerminator)

end Sys2Proof.Machine
end

