-- ==== Sys2Proof/Machine/Image.lean ====
section
/-! DEFINITION. The host's program-image text (R60) and the LoadError of its loader (R88, R89). It is outside the CORE
(R6); it is here because the spec describes it. Text is a list of characters. -/

namespace Sys2Proof.Machine

open Sys2Proof

/-- A blank: space, tab or carriage return. Log entry 8. -/
def isBlank (c : Char) : Bool := c == ' ' || c == '\t' || c == '\r'

/-- Text without the blanks at its two ends. -/
def trimBlanks (text : List Char) : List Char :=
  ((text.dropWhile isBlank).reverse.dropWhile isBlank).reverse

/-- Text cut at every character `sep` picks out. -/
def splitText (sep : Char → Bool) : List Char → List (List Char)
  | [] => [[]]
  | c :: rest =>
    if sep c then [] :: splitText sep rest
    else
      match splitText sep rest with
      | [] => [[c]]
      | line :: more => (c :: line) :: more

/-- The value of a binary literal read so far followed by more binary digits. -/
def binaryValue : Nat → List Char → Option Nat
  | acc, [] => some acc
  | acc, c :: rest =>
    if c = '0' then binaryValue (2 * acc) rest
    else if c = '1' then binaryValue (2 * acc + 1) rest
    else none

/-- An 8-digit binary literal (R60). -/
def binaryByte (text : List Char) : Option Byte :=
  if text.length = 8 then (binaryValue 0 text).map (BitVec.ofNat 8) else none

/-- One line of an image: its byte, nothing for a blank or comment-only line, or LoadError for a malformed one (R60,
R88). -/
def parseImageLine (line : List Char) : Except ErrorKind (Option Byte) :=
  let body := trimBlanks (line.takeWhile (fun c => c != '#'))
  if body = [] then .ok none
  else
    match binaryByte body with
    | some b => .ok (some b)
    | none => .error .loadError

/-- The bytes of an image's lines, one per valid line, in order (R60, R96); LoadError for lines with a malformed one
anywhere, also past the 256th byte. DESIGN CHOICE: log entry 13. -/
def parseImageLines : List (List Char) → Except ErrorKind (List Byte)
  | [] => .ok []
  | line :: rest => do
    let b ← parseImageLine line
    let bytes ← parseImageLines rest
    pure (b.toList ++ bytes)

/-- The bytes of an image text. -/
def parseImage (text : List Char) : Except ErrorKind (List Byte) :=
  parseImageLines (splitText (fun c => c == '\n') text)

/-- The code of what reading an image text reports (R88): 1 for LoadError, 0 for none. -/
def imageErrorCode (text : List Char) : Nat :=
  match parseImage text with
  | .ok _ => 0
  | .error kind => kind.code

/-- The boot from an image text. After a LoadError execution never starts (R89). DESIGN CHOICE, log entry 13: the whole
text is read first, so a LoadError comes before any byte is loaded, and before the AddressError of a 257th byte; the spec
leaves both open (R89, R98). -/
def bootText (text : List Char) (s : State) : Except ErrorKind (Host.Outcome State Fault Refusal) := do
  let image ← parseImage text
  pure (boot image s)

end Sys2Proof.Machine
end

