-- ==== Sys2Proof/WellFormed.lean ====
section
/-! DEFINITION. Well-formed instructions: every register operand names a register. An ill-formed instruction still
decodes and still has a meaning, the AddressError of R18. -/

namespace Sys2Proof

/-- The operand byte names a register, 0 to 7 (R54). -/
def namesReg (b : Byte) : Bool := b.toNat < Config.nRegs

/-- Every register operand of the instruction names a register. LDI's immediate is unrestricted (R54, R57). -/
def Instr.wellFormed : Instr → Bool
  | .hlt => true
  | .ret => true
  | .push r => namesReg r
  | .pop r => namesReg r
  | .prn r => namesReg r
  | .call r => namesReg r
  | .jmp r => namesReg r
  | .jeq r => namesReg r
  | .jne r => namesReg r
  | .ldi r _ => namesReg r
  | .mul a b => namesReg a && namesReg b
  | .cmp a b => namesReg a && namesReg b

end Sys2Proof
end

