-- ==== Sys2Proof/Machine/Assembly.lean ====
section
/-! DEFINITION. The assembly spelling of R59 (decision D20): printing an instruction and reading one back. It has no
effect on the machine. -/

namespace Sys2Proof.Machine

open Sys2Proof

/-- The mnemonic, as the opcode table spells it (R59). -/
def mnemonicOf : Opcode → List Char
  | .hlt => ['H', 'L', 'T']
  | .ret => ['R', 'E', 'T']
  | .push => ['P', 'U', 'S', 'H']
  | .pop => ['P', 'O', 'P']
  | .prn => ['P', 'R', 'N']
  | .call => ['C', 'A', 'L', 'L']
  | .jmp => ['J', 'M', 'P']
  | .jeq => ['J', 'E', 'Q']
  | .jne => ['J', 'N', 'E']
  | .ldi => ['L', 'D', 'I']
  | .mul => ['M', 'U', 'L']
  | .cmp => ['C', 'M', 'P']

/-- The operation a mnemonic names. -/
def opcodeOfMnemonic (text : List Char) : Option Opcode :=
  (opcodeTable.find? (fun row => mnemonicOf row.op == text)).map OpcodeRow.op

/-- A register operand, `R` followed by its index. An operand byte that names no register has no spelling. -/
def printReg (b : Byte) : Option (List Char) :=
  if namesReg b then some ('R' :: decimalDigits b) else none

/-- An instruction of one register operand. -/
def printOne (op : Opcode) (r : Byte) : Option (List Char) := do
  let a ← printReg r
  pure (mnemonicOf op ++ ' ' :: a)

/-- An instruction of two register operands. -/
def printTwo (op : Opcode) (x y : Byte) : Option (List Char) := do
  let a ← printReg x
  let b ← printReg y
  pure (mnemonicOf op ++ ' ' :: (a ++ ',' :: b))

/-- An instruction in R59's spelling, its immediate in decimal; nothing for an ill-formed one. -/
def printInstr : Instr → Option (List Char)
  | .hlt => some (mnemonicOf .hlt)
  | .ret => some (mnemonicOf .ret)
  | .push r => printOne .push r
  | .pop r => printOne .pop r
  | .prn r => printOne .prn r
  | .call r => printOne .call r
  | .jmp r => printOne .jmp r
  | .jeq r => printOne .jeq r
  | .jne r => printOne .jne r
  | .ldi r imm => do
    let a ← printReg r
    pure (mnemonicOf .ldi ++ ' ' :: (a ++ ',' :: decimalDigits imm))
  | .mul a b => printTwo .mul a b
  | .cmp a b => printTwo .cmp a b

/-- The value of one digit: `0` to `9`, then `A` to `F` in either case. Log entry 8. -/
def digitValue (c : Char) : Option Nat :=
  let n := c.toNat
  if 48 ≤ n ∧ n ≤ 57 then some (n - 48)
  else if 65 ≤ n ∧ n ≤ 70 then some (n - 55)
  else if 97 ≤ n ∧ n ≤ 102 then some (n - 87)
  else none

/-- The value of digits read so far followed by more digits of base `base`. -/
def digitsValue (base : Nat) : Nat → List Char → Option Nat
  | acc, [] => some acc
  | acc, c :: rest =>
    match digitValue c with
    | some d => if d < base then digitsValue base (base * acc + d) rest else none
    | none => none

/-- A number that fits a byte, from its digits; there is at least one. -/
def readDigits (base : Nat) (text : List Char) : Option Byte :=
  if text = [] then none
  else
    match digitsValue base 0 text with
    | some n => if n < 256 then some (BitVec.ofNat 8 n) else none
    | none => none

/-- An immediate: decimal, or hexadecimal after `0x` (R59). -/
def readNumber : List Char → Option Byte
  | '0' :: 'x' :: digits => readDigits 16 digits
  | text => readDigits 10 text

/-- A register: `R0` to `R7`, or `SP` for R7 (R59). -/
def readReg : List Char → Option Byte
  | ['S', 'P'] => some 7
  | ['R', c] =>
    match digitValue c with
    | some d => if d < Config.nRegs then some (BitVec.ofNat 8 d) else none
    | none => none
  | _ => none

/-- The instruction of an operation and its operands' text. -/
def readOperands : Opcode → List (List Char) → Option Instr
  | .hlt, [] => some .hlt
  | .ret, [] => some .ret
  | .push, [r] => (readReg r).map .push
  | .pop, [r] => (readReg r).map .pop
  | .prn, [r] => (readReg r).map .prn
  | .call, [r] => (readReg r).map .call
  | .jmp, [r] => (readReg r).map .jmp
  | .jeq, [r] => (readReg r).map .jeq
  | .jne, [r] => (readReg r).map .jne
  | .ldi, [r, imm] => do
    let a ← readReg r
    let v ← readNumber imm
    pure (.ldi a v)
  | .mul, [x, y] => do
    let a ← readReg x
    let b ← readReg y
    pure (.mul a b)
  | .cmp, [x, y] => do
    let a ← readReg x
    let b ← readReg y
    pure (.cmp a b)
  | _, _ => none

/-- The operands' text after the mnemonic: none, or the parts between commas. -/
def operandTexts (text : List Char) : List (List Char) :=
  let body := trimBlanks text
  if body = [] then [] else (splitText (fun c => c == ',') body).map trimBlanks

/-- One instruction in R59's spelling: the mnemonic, a space, the operands separated by commas. -/
def readInstr (text : List Char) : Option Instr :=
  let body := trimBlanks text
  match opcodeOfMnemonic (body.takeWhile (fun c => !isBlank c)) with
  | some op => readOperands op (operandTexts (body.dropWhile (fun c => !isBlank c)))
  | none => none

/-- The instructions of a list of lines, empty ones skipped. -/
def readLines : List (List Char) → Option (List Instr)
  | [] => some []
  | line :: rest =>
    if trimBlanks line = [] then readLines rest
    else do
      let i ← readInstr line
      let more ← readLines rest
      pure (i :: more)

/-- A program: instructions separated by `;` or a new line (R59). -/
def readProgram (text : List Char) : Option (List Instr) :=
  readLines (splitText (fun c => c == ';' || c == '\n') text)

/-- The bytes of a program, from the image base on. -/
def assemble (text : List Char) : Option (List Byte) :=
  (readProgram text).map (fun is => is.flatMap encode)

end Sys2Proof.Machine
end

