-- ==== Sys2Proof/Safety.lean ====
section
/-! DEFINITION. The terms in which statements speak of runs: a run ended by a fatal error, legal fault records, the
state invariant, the reachable states. -/

namespace Sys2Proof.Machine

open Sys2Proof

/-- The operand byte that names register `r` (R54). -/
def regByte (r : Reg) : Byte := BitVec.ofNat 8 r.val

/-- `s` with its run ended by the fatal error `(kind, pc, info)` and nothing else changed: R90's entry, written out. -/
def State.endedBy (kind : ErrorKind) (info : FaultInfo) (s : State) : State :=
  { s with runState := .faulted, fault := some { kind := kind, fpc := s.pc, info := info } }

/-- The CORE is RUNNING, `pc` lies in memory and the byte there is `op`: an opcode about to be executed. -/
def State.AtOpcode (op : Byte) (s : State) : Prop :=
  s.runState = .running ∧ s.pc.toNat ≤ 255 ∧ s.mem.read s.pc.toNat = op

/-- Exactly one of L, G and E is set (R25). -/
def Flags.exactlyOne (f : Flags) : Bool :=
  (f.l && !f.g && !f.e) || (!f.l && f.g && !f.e) || (!f.l && !f.g && f.e)

/-- At most one of L, G and E is set: exactly one after a CMP, none before the first (R25, R26). -/
def Flags.atMostOne (f : Flags) : Bool := f.exactlyOne || (!f.l && !f.g && !f.e)

/-- A fault record the CORE can write: a kind that a program or a load reaches (R89), with the offending value R88
pairs with it, a value that does offend. -/
def FaultRecord.legal (r : FaultRecord) : Bool :=
  match r.kind, r.info with
  | .addressError, .mem addr => decide (255 < addr.toNat)
  | .addressError, .reg b => decide (7 < b.toNat)
  | .unknownOpcodeError, .op b => (Opcode.ofByte b).isNone
  | _, _ => false

/-- The state invariant: memory is in canonical form; at most one flag is set; `pc` is at most one past memory; there
is a fault record exactly when the CORE is FAULTED, and it is a legal one. -/
structure State.Inv (s : State) : Prop where
  memCanonical : s.mem.wf = true
  flagsExclusive : s.fl.atMostOne = true
  pcInRange : s.pc.toNat ≤ 256
  faultIffFaulted : s.fault.isSome = true ↔ s.runState = .faulted
  faultLegal : ∀ r, s.fault = some r → r.legal = true

/-- The states that host operations and steps reach from reset (R95, R70). -/
inductive Reachable : State → Prop where
  | reset : Reachable State.reset
  | loadByte {s t : State} (addr : PcWord) (b : Byte) :
      Reachable s → Machine.loadByte addr b s = .next t → Reachable t
  | run {s t : State} : Reachable s → startRun s = .next t → Reachable t
  | step {s t : State} : Reachable s → Machine.step s = .next t → Reachable t

/-- `s` with the flags L and G replaced. -/
def State.withLG (l g : Bool) (s : State) : State := { s with fl := { s.fl with l := l, g := g } }

/-- The registers an instruction may write (R20). -/
def mayWrite (r : Reg) : Instr → Prop
  | .hlt => False
  | .ret => r = 7
  | .push _ => r = 7
  | .pop x => x = regByte r ∨ r = 7
  | .prn _ => False
  | .call _ => r = 7
  | .jmp _ => False
  | .jeq _ => False
  | .jne _ => False
  | .ldi x _ => x = regByte r
  | .mul a _ => a = regByte r
  | .cmp _ _ => False

end Sys2Proof.Machine
end

