-- ==== Sys2Proof/Certificates/Slice0/Obligations.lean ====
section
/-! DEFINITION. The statements about the CORE. A rule's effect is written out as an update of the state's fields, so
every field not named is unchanged. -/

open Sys2Proof Sys2Proof.Machine

/-! ## Encoding and decoding -/

/-- Decoding and encoding are inverse: bytes decode to an instruction exactly when they are its encoding followed by the
bytes left over, every operand byte at every value (R51, R55; R57: operand bytes are not restricted by the decoder). -/
def Obligations.DecodeInvertsEncode : Prop :=
  ∀ (bytes : List Byte) (i : Instr) (rest : List Byte),
    decode bytes = .ok (i, rest) ↔ bytes = encode i ++ rest

/-- R55's opcode map, row by row: the byte, the operation and the operand bytes of its format. -/
def Obligations.OpcodeMapDecodes : Prop :=
  ∀ (x y : Byte) (rest : List Byte),
    decode (0x01 :: rest) = .ok (.hlt, rest) ∧
    decode (0x11 :: rest) = .ok (.ret, rest) ∧
    decode (0x45 :: x :: rest) = .ok (.push x, rest) ∧
    decode (0x46 :: x :: rest) = .ok (.pop x, rest) ∧
    decode (0x47 :: x :: rest) = .ok (.prn x, rest) ∧
    decode (0x50 :: x :: rest) = .ok (.call x, rest) ∧
    decode (0x54 :: x :: rest) = .ok (.jmp x, rest) ∧
    decode (0x55 :: x :: rest) = .ok (.jeq x, rest) ∧
    decode (0x56 :: x :: rest) = .ok (.jne x, rest) ∧
    decode (0x82 :: x :: y :: rest) = .ok (.ldi x y, rest) ∧
    decode (0xA2 :: x :: y :: rest) = .ok (.mul x y, rest) ∧
    decode (0xA7 :: x :: y :: rest) = .ok (.cmp x y, rest)

/-- R56: every byte but the twelve is illegal, there are 244 of them, and executing one ends the run with
UnknownOpcodeError and the opcode as its information. -/
def Obligations.UnlistedOpcodesAreFatal : Prop :=
  let legal : List Byte := [0x01, 0x11, 0x45, 0x46, 0x47, 0x50, 0x54, 0x55, 0x56, 0x82, 0xA2, 0xA7]
  (∀ (b : Byte) (rest : List Byte), decode (b :: rest) = .error (.unknownOpcode b) ↔ b ∉ legal) ∧
  ((List.range 256).filter (fun n => BitVec.ofNat 8 n ∉ legal)).length = 244 ∧
  (∀ (s : State) (b : Byte), s.AtOpcode b → b ∉ legal →
    step s = .next (s.endedBy .unknownOpcodeError (.op b)))

/-- R92, steps 1 to 3, in the loop of R70: the opcode fetch, the opcode, the operand fetches in address order; only
then is the instruction executed. The order is the spec's decision D9. -/
def Obligations.FetchErrorsComeInOrder : Prop :=
  ∀ s : State, s.runState = .running →
    (255 < s.pc.toNat → step s = .next (s.endedBy .addressError (.mem s.pc))) ∧
    (s.pc.toNat ≤ 255 → (∀ row ∈ opcodeTable, row.byte ≠ s.mem.read s.pc.toNat) →
      step s = .next (s.endedBy .unknownOpcodeError (.op (s.mem.read s.pc.toNat)))) ∧
    (∀ row ∈ opcodeTable, s.pc.toNat ≤ 255 → row.byte = s.mem.read s.pc.toNat →
      (2 ≤ row.format.length → 255 < s.pc.toNat + 1 →
        step s = .next (s.endedBy .addressError (.mem (s.pc + 1)))) ∧
      (3 ≤ row.format.length → s.pc.toNat + 1 ≤ 255 → 255 < s.pc.toNat + 2 →
        step s = .next (s.endedBy .addressError (.mem (s.pc + 2)))) ∧
      (s.pc.toNat + row.format.length ≤ 256 →
        ∃ i : Instr, i.opcode = row.op ∧
          encode i = (List.range row.format.length).map (fun k => s.mem.read (s.pc.toNat + k)) ∧
          step s = exec i s))

/-- When the bytes at `pc` are the encoding of an instruction, a step of a RUNNING CORE is `exec` of that instruction in
that very state: nothing is added around it, and `exec` itself moves `pc` (R70, R21). -/
def Obligations.StepRunsTheDecodedInstruction : Prop :=
  ∀ (s : State) (i : Instr), s.runState = .running → s.pc.toNat + i.length ≤ 256 →
    (List.range i.length).map (fun k => s.mem.read (s.pc.toNat + k)) = encode i →
    step s = exec i s

/-- The model's own convention (log entry 5): an instruction placed by `withFetchWord` is what the very next step
runs, and the placing touches neither registers, flags, fault record nor output. -/
def Obligations.PlacedInstructionRunsNext : Prop :=
  ∀ (s : State) (nbits w : Nat) (i : Instr), decodeTableWord nbits w = some i →
    step (s.withFetchWord nbits w) = exec i (s.withFetchWord nbits w) ∧
    s.withFetchWord nbits w =
      { s with mem := (s.withFetchWord nbits w).mem, pc := (s.withFetchWord nbits w).pc, runState := .running }

/-! ## The instructions, rule by rule: what a step at the opcode executes, the effect with everything else unchanged, the
errors in order -/

/-- R68, MUL. -/
def Obligations.MulFollowsItsRule : Prop :=
  (∀ s : State, s.AtOpcode 0xA2 → s.pc.toNat + 2 ≤ 255 →
    step s = exec (.mul (s.mem.read (s.pc.toNat + 1)) (s.mem.read (s.pc.toNat + 2))) s) ∧
  (∀ (s : State) (a b : Reg), exec (.mul (regByte a) (regByte b)) s = .next { s with
    regs := s.regs.set a (BitVec.ofNat 8 (s.regs[a].toNat * s.regs[b].toNat % 256)), pc := s.pc + 3 }) ∧
  (∀ s : State, s.AtOpcode 0xA2 → 255 < s.pc.toNat + 1 →
    step s = .next (s.endedBy .addressError (.mem (s.pc + 1)))) ∧
  (∀ s : State, s.AtOpcode 0xA2 → s.pc.toNat + 1 ≤ 255 → 255 < s.pc.toNat + 2 →
    step s = .next (s.endedBy .addressError (.mem (s.pc + 2)))) ∧
  (∀ (s : State) (a b : Byte), 7 < a.toNat →
    exec (.mul a b) s = .next (s.endedBy .addressError (.reg a))) ∧
  (∀ (s : State) (a : Reg) (b : Byte), 7 < b.toNat →
    exec (.mul (regByte a) b) s = .next (s.endedBy .addressError (.reg b)))

/-- R69, CMP: the three flags whatever they were before; no register is written. That L means "first operand less" is
the spec's decision D6. -/
def Obligations.CmpFollowsItsRule : Prop :=
  (∀ s : State, s.AtOpcode 0xA7 → s.pc.toNat + 2 ≤ 255 →
    step s = exec (.cmp (s.mem.read (s.pc.toNat + 1)) (s.mem.read (s.pc.toNat + 2))) s) ∧
  (∀ (s : State) (a b : Reg), exec (.cmp (regByte a) (regByte b)) s = .next { s with
    fl := { l := decide (s.regs[a].toNat < s.regs[b].toNat), g := decide (s.regs[b].toNat < s.regs[a].toNat),
            e := decide (s.regs[a] = s.regs[b]) },
    pc := s.pc + 3 }) ∧
  (∀ s : State, s.AtOpcode 0xA7 → 255 < s.pc.toNat + 1 →
    step s = .next (s.endedBy .addressError (.mem (s.pc + 1)))) ∧
  (∀ s : State, s.AtOpcode 0xA7 → s.pc.toNat + 1 ≤ 255 → 255 < s.pc.toNat + 2 →
    step s = .next (s.endedBy .addressError (.mem (s.pc + 2)))) ∧
  (∀ (s : State) (a b : Byte), 7 < a.toNat →
    exec (.cmp a b) s = .next (s.endedBy .addressError (.reg a))) ∧
  (∀ (s : State) (a : Reg) (b : Byte), 7 < b.toNat →
    exec (.cmp (regByte a) b) s = .next (s.endedBy .addressError (.reg b)))

/-- R77, LDI: R7 is written like any other register. -/
def Obligations.LdiFollowsItsRule : Prop :=
  (∀ s : State, s.AtOpcode 0x82 → s.pc.toNat + 2 ≤ 255 →
    step s = exec (.ldi (s.mem.read (s.pc.toNat + 1)) (s.mem.read (s.pc.toNat + 2))) s) ∧
  (∀ (s : State) (r : Reg) (imm : Byte),
    exec (.ldi (regByte r) imm) s = .next { s with regs := s.regs.set r imm, pc := s.pc + 3 }) ∧
  (∀ s : State, s.AtOpcode 0x82 → 255 < s.pc.toNat + 1 →
    step s = .next (s.endedBy .addressError (.mem (s.pc + 1)))) ∧
  (∀ s : State, s.AtOpcode 0x82 → s.pc.toNat + 1 ≤ 255 → 255 < s.pc.toNat + 2 →
    step s = .next (s.endedBy .addressError (.mem (s.pc + 2)))) ∧
  (∀ (s : State) (r imm : Byte), 7 < r.toNat →
    exec (.ldi r imm) s = .next (s.endedBy .addressError (.reg r)))

/-- R78, PRN: the value is appended to `out`; on an error nothing is emitted. -/
def Obligations.PrnFollowsItsRule : Prop :=
  (∀ s : State, s.AtOpcode 0x47 → s.pc.toNat + 1 ≤ 255 →
    step s = exec (.prn (s.mem.read (s.pc.toNat + 1))) s) ∧
  (∀ (s : State) (r : Reg),
    exec (.prn (regByte r)) s = .next { s with out := s.out ++ [s.regs[r]], pc := s.pc + 2 }) ∧
  (∀ s : State, s.AtOpcode 0x47 → 255 < s.pc.toNat + 1 →
    step s = .next (s.endedBy .addressError (.mem (s.pc + 1)))) ∧
  (∀ (s : State) (r : Byte), 7 < r.toNat →
    exec (.prn r) s = .next (s.endedBy .addressError (.reg r)))

/-- R79, PUSH: the cell stored to is `mem[SP - 1]`, wrapping, and every other cell reads as before. PUSH R7 stores the
decremented SP (the spec's decision D23). -/
def Obligations.PushFollowsItsRule : Prop :=
  (∀ s : State, s.AtOpcode 0x45 → s.pc.toNat + 1 ≤ 255 →
    step s = exec (.push (s.mem.read (s.pc.toNat + 1))) s) ∧
  (∀ (s : State) (r : Reg),
    let sp' : Byte := s.regs[7] - 1
    let v : Byte := if r = 7 then sp' else s.regs[r]
    ∃ m : Memory, exec (.push (regByte r)) s = .next { s with
        regs := s.regs.set 7 sp', mem := m, pc := s.pc + 2 } ∧
      m.read sp'.toNat = v ∧ ∀ addr, addr ≠ sp'.toNat → m.read addr = s.mem.read addr) ∧
  (∀ s : State, s.AtOpcode 0x45 → 255 < s.pc.toNat + 1 →
    step s = .next (s.endedBy .addressError (.mem (s.pc + 1)))) ∧
  (∀ (s : State) (r : Byte), 7 < r.toNat →
    exec (.push r) s = .next (s.endedBy .addressError (.reg r)))

/-- R80, POP: memory is unchanged. POP R7 leaves the popped value plus 1 in SP (the spec's decision D23). -/
def Obligations.PopFollowsItsRule : Prop :=
  (∀ s : State, s.AtOpcode 0x46 → s.pc.toNat + 1 ≤ 255 →
    step s = exec (.pop (s.mem.read (s.pc.toNat + 1))) s) ∧
  (∀ (s : State) (r : Reg), r ≠ 7 → exec (.pop (regByte r)) s = .next { s with
    regs := (s.regs.set r (s.mem.read s.regs[7].toNat)).set 7 (s.regs[7] + 1), pc := s.pc + 2 }) ∧
  (∀ s : State, exec (.pop (regByte 7)) s = .next { s with
    regs := s.regs.set 7 (s.mem.read s.regs[7].toNat + 1), pc := s.pc + 2 }) ∧
  (∀ s : State, s.AtOpcode 0x46 → 255 < s.pc.toNat + 1 →
    step s = .next (s.endedBy .addressError (.mem (s.pc + 1)))) ∧
  (∀ (s : State) (r : Byte), 7 < r.toNat →
    exec (.pop r) s = .next (s.endedBy .addressError (.reg r)))

/-- R83, JMP: no flag is read or written. -/
def Obligations.JmpFollowsItsRule : Prop :=
  (∀ s : State, s.AtOpcode 0x54 → s.pc.toNat + 1 ≤ 255 →
    step s = exec (.jmp (s.mem.read (s.pc.toNat + 1))) s) ∧
  (∀ (s : State) (r : Reg), exec (.jmp (regByte r)) s = .next { s with pc := s.regs[r].setWidth 9 }) ∧
  (∀ s : State, s.AtOpcode 0x54 → 255 < s.pc.toNat + 1 →
    step s = .next (s.endedBy .addressError (.mem (s.pc + 1)))) ∧
  (∀ (s : State) (r : Byte), 7 < r.toNat →
    exec (.jmp r) s = .next (s.endedBy .addressError (.reg r)))

/-- R84, JEQ. The register is checked whether or not the jump is taken (the spec's decision D9). -/
def Obligations.JeqFollowsItsRule : Prop :=
  (∀ s : State, s.AtOpcode 0x55 → s.pc.toNat + 1 ≤ 255 →
    step s = exec (.jeq (s.mem.read (s.pc.toNat + 1))) s) ∧
  (∀ (s : State) (r : Reg), s.fl.e = true →
    exec (.jeq (regByte r)) s = .next { s with pc := s.regs[r].setWidth 9 }) ∧
  (∀ (s : State) (r : Reg), s.fl.e = false → exec (.jeq (regByte r)) s = .next { s with pc := s.pc + 2 }) ∧
  (∀ s : State, s.AtOpcode 0x55 → 255 < s.pc.toNat + 1 →
    step s = .next (s.endedBy .addressError (.mem (s.pc + 1)))) ∧
  (∀ (s : State) (r : Byte), 7 < r.toNat →
    exec (.jeq r) s = .next (s.endedBy .addressError (.reg r)))

/-- R85, JNE. The register is checked whether or not the jump is taken (the spec's decision D9). -/
def Obligations.JneFollowsItsRule : Prop :=
  (∀ s : State, s.AtOpcode 0x56 → s.pc.toNat + 1 ≤ 255 →
    step s = exec (.jne (s.mem.read (s.pc.toNat + 1))) s) ∧
  (∀ (s : State) (r : Reg), s.fl.e = false →
    exec (.jne (regByte r)) s = .next { s with pc := s.regs[r].setWidth 9 }) ∧
  (∀ (s : State) (r : Reg), s.fl.e = true → exec (.jne (regByte r)) s = .next { s with pc := s.pc + 2 }) ∧
  (∀ s : State, s.AtOpcode 0x56 → 255 < s.pc.toNat + 1 →
    step s = .next (s.endedBy .addressError (.mem (s.pc + 1)))) ∧
  (∀ (s : State) (r : Byte), 7 < r.toNat →
    exec (.jne r) s = .next (s.endedBy .addressError (.reg r)))

/-- R74, CALL: the cell stored to is `mem[SP - 1]`, and every other cell reads as before. A return address above 255 is
the spec's decision D11, CALL R7 its decision D23. -/
def Obligations.CallFollowsItsRule : Prop :=
  (∀ s : State, s.AtOpcode 0x50 → s.pc.toNat + 1 ≤ 255 →
    step s = exec (.call (s.mem.read (s.pc.toNat + 1))) s) ∧
  (∀ (s : State) (r : Reg), (s.pc + 2).toNat ≤ 255 →
    let sp' : Byte := s.regs[7] - 1
    let target : Byte := if r = 7 then sp' else s.regs[r]
    ∃ m : Memory, exec (.call (regByte r)) s = .next { s with
        regs := s.regs.set 7 sp', mem := m, pc := target.setWidth 9 } ∧
      (m.read sp'.toNat).toNat = (s.pc + 2).toNat ∧
      ∀ addr, addr ≠ sp'.toNat → m.read addr = s.mem.read addr) ∧
  (∀ s : State, s.AtOpcode 0x50 → 255 < s.pc.toNat + 1 →
    step s = .next (s.endedBy .addressError (.mem (s.pc + 1)))) ∧
  (∀ (s : State) (r : Byte), 7 < r.toNat →
    exec (.call r) s = .next (s.endedBy .addressError (.reg r))) ∧
  (∀ (s : State) (r : Reg), 255 < (s.pc + 2).toNat →
    exec (.call (regByte r)) s = .next (s.endedBy .addressError (.mem (s.pc + 2))))

/-- R75, RET: whatever byte is at SP, a RET at address 255 too. -/
def Obligations.RetFollowsItsRule : Prop :=
  (∀ s : State, exec .ret s = .next { s with
    pc := (s.mem.read s.regs[7].toNat).setWidth 9, regs := s.regs.set 7 (s.regs[7] + 1) }) ∧
  (∀ s : State, s.AtOpcode 0x11 → step s = exec .ret s)

/-- R73, HLT: `pc` keeps the address of the HLT byte (the spec's decision D10); legal at address 255. -/
def Obligations.HltFollowsItsRule : Prop :=
  (∀ s : State, exec .hlt s = .next { s with runState := .halted }) ∧
  (∀ s : State, s.AtOpcode 0x01 → step s = exec .hlt s)

/-! ## The ALU -/

/-- The ALU's ADD, SUB and MUL are the operation modulo 256, on any registers, flags and all else unchanged
(40_alu.md section 1). -/
def Obligations.AluArithmeticWraps : Prop :=
  ∀ (s : State) (a b : Reg),
    alu .add a b s = .ok { s with
      regs := s.regs.set a (BitVec.ofNat 8 ((s.regs[a].toNat + s.regs[b].toNat) % 256)) } ∧
    alu .sub a b s = .ok { s with
      regs := s.regs.set a (BitVec.ofInt 8 (((s.regs[a].toNat : Int) - (s.regs[b].toNat : Int)) % 256)) } ∧
    alu .mul a b s = .ok { s with
      regs := s.regs.set a (BitVec.ofNat 8 (s.regs[a].toNat * s.regs[b].toNat % 256)) }

/-- The ALU's DIV is the truncating quotient, a zero divisor is MathError (the spec's decision D13), and a kind outside
the five, which the model holds as one kind (log entry 9), is UnsupportedOperationError. -/
def Obligations.AluDivisionAndErrors : Prop :=
  ∀ (s : State) (a b : Reg),
    (s.regs[b] = 0 → alu .div a b s = .error { kind := .mathError, info := .div }) ∧
    (s.regs[b] ≠ 0 → ∃ q : Byte, alu .div a b s = .ok { s with regs := s.regs.set a q } ∧
      q.toNat * s.regs[b].toNat ≤ s.regs[a].toNat ∧ s.regs[a].toNat < (q.toNat + 1) * s.regs[b].toNat) ∧
    alu .other a b s = .error { kind := .unsupportedOperationError, info := .none }

/-! ## Flags -/

/-- R25: after every CMP exactly one flag is set, whatever was set before. -/
def Obligations.CmpSetsExactlyOneFlag : Prop :=
  ∀ (s : State) (a b : Reg), ∃ t, exec (.cmp (regByte a) (regByte b)) s = .next t ∧ t.fl.exactlyOne = true

/-- Only CMP writes a flag, and no instruction reads L or G: changing them changes nothing else in the next state
(10_state.md section 4). -/
def Obligations.OnlyCmpWritesFlagsAndNoneReadsLG : Prop :=
  (∀ s t : State, step s = .next t → t.fl ≠ s.fl → ∃ a b : Byte, s.fetchInstr = .ok (.cmp a b)) ∧
  (∀ (i : Instr) (s t : State), exec i s = .next t → (∀ a b : Byte, i ≠ .cmp a b) → t.fl = s.fl) ∧
  (∀ (s t : State) (l g : Bool), step s = .next t →
    ∃ t', step (s.withLG l g) = .next t' ∧ t'.withLG false false = t.withLG false false)

/-- After a CMP of two registers, JEQ is taken exactly when their values are equal, and JNE exactly when they are not
(43_branch.md, the rule after JNE). -/
def Obligations.BranchesFollowTheComparison : Prop :=
  ∀ (s : State) (a b r : Reg), ∃ t, exec (.cmp (regByte a) (regByte b)) s = .next t ∧
    exec (.jeq (regByte r)) t = .next { t with
      pc := if s.regs[a] = s.regs[b] then s.regs[r].setWidth 9 else t.pc + 2 } ∧
    exec (.jne (regByte r)) t = .next { t with
      pc := if s.regs[a] = s.regs[b] then t.pc + 2 else s.regs[r].setWidth 9 }

/-! ## Stack and memory -/

/-- R76: a RET in any later state with the SP the CALL left and the cell it pushed goes to the instruction after the
CALL and gives SP its value before the CALL; neither instruction changes another register or a flag. -/
def Obligations.RetReturnsBehindItsCall : Prop :=
  ∀ (s : State) (r : Reg), (s.pc + 2).toNat ≤ 255 →
    ∃ t, exec (.call (regByte r)) s = .next t ∧ t.fl = s.fl ∧ (∀ q : Reg, q ≠ 7 → t.regs[q] = s.regs[q]) ∧
      ∀ t' : State, t'.regs[7] = t.regs[7] → t'.mem.read t.regs[7].toNat = t.mem.read t.regs[7].toNat →
        exec .ret t' = .next { t' with pc := s.pc + 2, regs := t'.regs.set 7 s.regs[7] }

/-- A PUSH and then a POP of the same register restore every register, R7 included; the cell keeps the pushed value
(42_data.md, the rule after POP; PUSH R7 and POP R7 as the spec's decision D23). -/
def Obligations.PopUndoesPush : Prop :=
  ∀ (s : State) (r : Reg), ∃ t, exec (.push (regByte r)) s = .next t ∧
    exec (.pop (regByte r)) t = .next { t with regs := s.regs, pc := s.pc + 4 } ∧
    t.mem.read (s.regs[7] - 1).toNat = if r = 7 then s.regs[7] - 1 else s.regs[r]

/-- A step changes at most one cell of memory, `mem[SP - 1]`, and only a PUSH or a CALL changes any. -/
def Obligations.StoresGoOnlyThroughTheStackPointer : Prop :=
  ∀ (s t : State) (addr : Nat), step s = .next t → t.mem.read addr ≠ s.mem.read addr →
    addr = (s.regs[7] - 1).toNat ∧ ∃ r : Byte, s.fetchInstr = .ok (.push r) ∨ s.fetchInstr = .ok (.call r)

/-- The byte a PUSH writes is the byte the next step fetches when `pc` reaches it at once: the HLT byte halts, an
illegal byte is fatal (20_memory.md section 6, fetch coherence). -/
def Obligations.PushedByteIsFetched : Prop :=
  ∀ (s : State) (r : Reg), s.runState = .running → r ≠ 7 → (s.pc + 2).toNat = (s.regs[7] - 1).toNat →
    ∃ t, exec (.push (regByte r)) s = .next t ∧
      (s.regs[r] = 0x01 → step t = .next { t with runState := .halted }) ∧
      (Opcode.ofByte s.regs[r] = none → step t = .next (t.endedBy .unknownOpcodeError (.op s.regs[r])))

/-- Memories in canonical form that read the same at every address are the same list. -/
def Obligations.CanonicalMemoriesAreDeterminedByReads : Prop :=
  ∀ m n : Memory, m.wf = true → n.wf = true → (∀ a, m.read a = n.read a) → m = n

/-! ## Registers and the program counter -/

/-- The registers each instruction may write (10_state.md section 2); every other register keeps its value. -/
def Obligations.OnlyListedRegistersChange : Prop :=
  ∀ (i : Instr) (s t : State) (r : Reg), exec i s = .next t → t.regs[r] ≠ s.regs[r] → mayWrite r i

/-- Where no handler redirects control flow, `pc` advances by the instruction's length, which is the length of its
encoding (10_state.md section 3; HLT keeps `pc`, the spec's decision D10). -/
def Obligations.SequentialAdvanceIsTheLength : Prop :=
  ∀ (i : Instr) (s : State), i.wellFormed = true →
    ((∃ r : Byte, i = .push r ∨ i = .pop r ∨ i = .prn r) ∨ (∃ a b : Byte, i = .ldi a b ∨ i = .mul a b ∨ i = .cmp a b)) →
    ∃ t, exec i s = .next t ∧ t.pc = s.pc + BitVec.ofNat 9 (encode i).length

/-- A well-formed instruction whose return address (if it is a CALL) fits memory takes no fatal error; an ill-formed
one takes AddressError(REG) of an operand above 7, in any state (10_state.md section 2). -/
def Obligations.RegisterOperandsDecideTheError : Prop :=
  ∀ (i : Instr) (s : State),
    (i.wellFormed = true → (s.pc + 2).toNat ≤ 255 →
      ∃ t, exec i s = .next t ∧ t.fault = s.fault ∧ (t.runState = s.runState ∨ i = .hlt)) ∧
    (i.wellFormed = false →
      ∃ b : Byte, 7 < b.toNat ∧ exec i s = .next (s.endedBy .addressError (.reg b)))

/-! ## Fatal errors and run states -/

/-- A step that ends FAULTED changed nothing but the run state and the fault record, which names the `pc` it was at
(60_exceptions.md section 2, the spec's decision D9). -/
def Obligations.FatalErrorsArePrecise : Prop :=
  ∀ s t : State, step s = .next t → t.runState = .faulted →
    ∃ (kind : ErrorKind) (info : FaultInfo), t = s.endedBy kind info

/-- The kinds a program reaches are AddressError and UnknownOpcodeError (60_exceptions.md section 1). -/
def Obligations.OnlyTwoErrorKindsAreReached : Prop :=
  ∀ (s t : State) (r : FaultRecord), step s = .next t → t.runState = .faulted → t.fault = some r →
    r.kind = .addressError ∨ r.kind = .unknownOpcodeError

/-- No instruction executes in LOAD, HALTED or FAULTED. That the model's step answers these names there is its own
choice (log entry 4). -/
def Obligations.NoStepOutsideRunning : Prop :=
  ∀ s : State,
    (s.runState = .load → step s = .refused .runNotStarted) ∧
    (s.runState = .halted → step s = .fault .coreHalted) ∧
    (s.runState = .faulted → step s = .fault .coreFaulted)

/-- Every step of a RUNNING CORE ends in a next state; it is never LOAD, and HALTED exactly when the instruction was
HLT (41_loop_control.md section 1, 70_reset_and_hazards.md section 4). -/
def Obligations.RunningStepsComplete : Prop :=
  ∀ s : State, s.runState = .running →
    ∃ t, step s = .next t ∧ t.runState ≠ .load ∧ (t.runState = .halted ↔ s.fetchInstr = .ok .hlt)

/-- A run observed for `n` steps (the model's form of Run, log entry 7) is RUNNING, HALTED or FAULTED, and once it has
ended more steps change nothing and a second Run is refused (10_state.md section 5, 41_loop_control.md section 1, the
spec's decision D14). -/
def Obligations.EndedRunsStayEnded : Prop :=
  ∀ (n k : Nat) (s : State), s.runState = .running →
    (runWhileRunning n s).runState ≠ .load ∧
    ((runWhileRunning n s).runState ≠ .running →
      runWhileRunning (n + k) s = runWhileRunning n s ∧
      hostRun k (runWhileRunning n s) = .refused .runOutsideLoad)

/-- The fault record is written once: where one stands in a sound state, neither a step, a load nor a Run goes on
(10_state.md section 5, the spec's decision D8; the names of the stops are log entry 4). -/
def Obligations.FaultRecordIsWrittenOnce : Prop :=
  ∀ s : State, s.Inv → s.fault.isSome = true →
    step s = .fault .coreFaulted ∧ startRun s = .refused .runOutsideLoad ∧
    ∀ (addr : PcWord) (b : Byte), loadByte addr b s = .refused .loadByteOutsideLoad

/-! ## Output -/

/-- `out` only grows: by one value, and only when a PRN completes, the value of its register (10_state.md section 5,
the spec's decision D16). -/
def Obligations.OutputGrowsOnlyByPrn : Prop :=
  ∀ s t : State, step s = .next t →
    t.out = s.out ∨ ∃ r : Reg, s.fetchInstr = .ok (.prn (regByte r)) ∧ t.out = s.out ++ [s.regs[r]]

/-- A program cannot read its output: earlier output changes nothing but the list itself. -/
def Obligations.OutputIsNeverRead : Prop :=
  ∀ (s t : State) (earlier : List Byte), step s = .next t →
    step { s with out := earlier ++ s.out } = .next { t with out := earlier ++ t.out }

/-! ## Reset and the host -/

/-- What reset leaves, each piece of state (70_reset_and_hazards.md section 1). SP and `pc` are the source's; R0 to R6,
the flags, memory, the record, the output and LOAD are the spec's decisions D2, D3, D4, D8, D14 and D16. -/
def Obligations.ResetLeavesTheListedValues : Prop :=
  ∀ s : State,
    (∀ a, (hostReset s).mem.read a = 0) ∧ (∀ r : Reg, r ≠ 7 → (hostReset s).regs[r] = 0) ∧
    (hostReset s).regs[7] = 0xF4 ∧ (hostReset s).pc = 0 ∧
    (hostReset s).fl = { l := false, g := false, e := false } ∧
    (hostReset s).fault = none ∧ (hostReset s).out = [] ∧ (hostReset s).runState = .load

/-- LoadByte: one cell in LOAD, AddressError(MEM) with the load address as `fpc` above 255, refused outside LOAD
(60_exceptions.md section 5, the spec's decision D15; the 9-bit load address is log entry 6). -/
def Obligations.LoadByteWritesOneCell : Prop :=
  ∀ (s : State) (addr : PcWord) (b : Byte),
    (s.runState = .load → addr.toNat ≤ 255 →
      ∃ m : Memory, loadByte addr b s = .next { s with mem := m } ∧
        ∀ a, m.read a = if a = addr.toNat then b else s.mem.read a) ∧
    (s.runState = .load → 255 < addr.toNat →
      loadByte addr b s = .next { s with
        runState := .faulted, fault := some { kind := .addressError, fpc := addr, info := .mem addr } }) ∧
    (s.runState ≠ .load → loadByte addr b s = .refused .loadByteOutsideLoad)

/-- The boot sequence: an image of at most 256 bytes stands from address 0 on, every other cell is 0x00, and the CORE
is RUNNING with the rest as reset leaves it; a longer image faults at its 257th byte and Run is refused
(60_exceptions.md section 5, 70_reset_and_hazards.md section 2, the spec's decisions D4, D14, D15). -/
def Obligations.BootLoadsTheImageFromZero : Prop :=
  ∀ (image : List Byte) (s : State),
    (image.length ≤ 256 →
      ∃ m : Memory, boot image s = .next { State.reset with mem := m, runState := .running } ∧
        m.wf = true ∧ ∀ a, m.read a = (image[a]?).getD 0) ∧
    (256 < image.length →
      (∃ t, loadImage image (hostReset s) = .next t ∧ t.runState = .faulted ∧
        t.fault = some { kind := .addressError, fpc := 256, info := .mem 256 }) ∧
      boot image s = .refused .runOutsideLoad)

/-- `Inspect()` shows every piece of state: states that inspect alike are the same state; the flags' byte is 00000LGE
(10_state.md section 4 and 60_exceptions.md section 5, the spec's decisions D5 and D25). -/
def Obligations.InspectShowsEverything : Prop :=
  (∀ s t : State, inspect s = inspect t → s = t) ∧
  (∀ s : State, (inspect s).flByte.toNat = 4 * s.fl.l.toNat + 2 * s.fl.g.toNat + s.fl.e.toNat)

/-- The codes `Inspect()` reports (60_exceptions.md section 1, the spec's decision D7): 0, with no address and no
information, where there is no fault; else the number of the record's kind, with the record's address and value. Reading
an image text reports LoadError as 1 and success as 0 (which texts are LoadError is log entries 8 and 13). -/
def Obligations.ErrorCodesAreTheListedNumbers : Prop :=
  (∀ s : State, s.fault = none → (inspect s).fault = { code := 0, fpc := none, info := .none }) ∧
  (∀ (s : State) (r : FaultRecord), s.fault = some r →
    (inspect s).fault.fpc = some r.fpc ∧ (inspect s).fault.info = r.info ∧
    (r.kind = .loadError → (inspect s).fault.code = 1) ∧ (r.kind = .addressError → (inspect s).fault.code = 2) ∧
    (r.kind = .unknownOpcodeError → (inspect s).fault.code = 3) ∧ (r.kind = .mathError → (inspect s).fault.code = 4) ∧
    (r.kind = .unsupportedOperationError → (inspect s).fault.code = 5)) ∧
  (∀ text : List Char, (imageErrorCode text = 1 ↔ parseImage text = .error .loadError) ∧
    (imageErrorCode text = 0 ↔ ∃ bytes, parseImage text = .ok bytes))

/-- What the host reads after a step from a sound state (60_exceptions.md sections 1 and 2, the spec's decisions D7, D8
and D9): code 0 unless the CORE is FAULTED; in FAULTED the `pc` of the instruction, and code 2 with an address above 255
or an operand above 7, or code 3 with an opcode byte that is none of the twelve. -/
def Obligations.StepsReportTheirErrorCodes : Prop :=
  ∀ s t : State, s.Inv → step s = .next t →
    (t.runState ≠ .faulted → (inspect t).fault = { code := 0, fpc := none, info := .none }) ∧
    (t.runState = .faulted →
      (∃ addr : PcWord, 255 < addr.toNat ∧ (inspect t).fault = { code := 2, fpc := some s.pc, info := .mem addr }) ∨
      (∃ b : Byte, 7 < b.toNat ∧ (inspect t).fault = { code := 2, fpc := some s.pc, info := .reg b }) ∨
      (∃ op : Byte, Opcode.ofByte op = none ∧
        (inspect t).fault = { code := 3, fpc := some s.pc, info := .op op }))

/-- The host's rendering of a value: its unsigned decimal digits, no leading zeros, read back as the value
(60_exceptions.md section 5, the spec's decision D16). -/
def Obligations.RenderedValuesAreDecimal : Prop :=
  (∀ v : Byte, (decimalDigits v).foldl (fun n c => 10 * n + (c.toNat - 48)) 0 = v.toNat ∧
    (∀ c ∈ decimalDigits v, 48 ≤ c.toNat ∧ c.toNat ≤ 57) ∧
    ((decimalDigits v).head? = some '0' → v = 0 ∧ decimalDigits v = ['0'])) ∧
  (∀ (term : List Char) (out : List Byte) (v : Byte),
    renderOutput term (out ++ [v]) = renderOutput term out ++ (decimalDigits v ++ term))

/-- Every well-formed instruction has an assembly spelling, and reading it gives the instruction back (30_encoding.md
section 6, the spec's decision D20; what else reads as an instruction is log entry 8). -/
def Obligations.AssemblyReadsBack : Prop :=
  ∀ i : Instr, i.wellFormed = true → ∃ text, printInstr i = some text ∧ readInstr text = some i

/-- A line of image text: an 8-digit binary literal, with or without a comment, is its byte; a blank or comment-only
line is skipped; a line whose text is neither is LoadError, and so is a text with one anywhere
(30_encoding.md section 6, 60_exceptions.md section 1; what counts as blank is log entry 8, and that the whole text is
read before any byte is loaded is log entry 13, both the model's choice). -/
def Obligations.ImageLinesReadAsSpelled : Prop :=
  (∀ (b : Byte) (comment : List Char),
    let digits := (List.range 8).map (fun k => if b.getLsbD (7 - k) then '1' else '0')
    parseImageLine digits = .ok (some b) ∧ parseImageLine (digits ++ ' ' :: '#' :: comment) = .ok (some b)) ∧
  (∀ comment : List Char, parseImageLine [] = .ok none ∧ parseImageLine ('#' :: comment) = .ok none) ∧
  (∀ (line : List Char) (c : Char), c ∈ line → '#' ∉ line → c ≠ '0' → c ≠ '1' → isBlank c = false →
    parseImageLine line = .error .loadError) ∧
  (∀ (before after : List (List Char)) (line : List Char), parseImageLine line = .error .loadError →
    parseImageLines (before ++ line :: after) = .error .loadError)

/-! ## Invariants -/

/-- The invariant holds at reset. -/
def Obligations.InvAtReset : Prop := State.reset.Inv

/-- Every step keeps the invariant, from every state that meets it. -/
def Obligations.StepKeepsInv : Prop :=
  ∀ s t : State, s.Inv → step s = .next t → t.Inv

/-- LoadByte and Run keep the invariant. -/
def Obligations.HostOperationsKeepInv : Prop :=
  ∀ s t : State, s.Inv →
    (∀ (addr : PcWord) (b : Byte), loadByte addr b s = .next t → t.Inv) ∧ (startRun s = .next t → t.Inv)

/-- Every state that host operations and steps reach from reset meets the invariant, and, where it has ended by an
error, a fault record that R88 and R89 allow stands. -/
def Obligations.ReachableStatesAreSound : Prop :=
  ∀ s : State, Reachable s →
    s.Inv ∧ (s.runState = .faulted → ∃ r, s.fault = some r ∧ r.legal = true)
end

