-- ==== Sys2Proof/Laws/Decode.lean ====
section
/-! SUPPORT. What the opcode map and the decoder can answer. -/

namespace Sys2Proof

/-- The byte of an illegal opcode is in no row of the opcode map (R56). -/
theorem Opcode.ofByte_eq_none {b : Byte} : Opcode.ofByte b = none ↔ ∀ row ∈ opcodeTable, row.byte ≠ b := by
  simp [Opcode.ofByte]

/-- A byte that selects an operation is that operation's row's byte (R55). -/
theorem Opcode.row_of_ofByte {b : Byte} {op : Opcode} (h : Opcode.ofByte b = some op) :
    ∃ row ∈ opcodeTable, row.byte = b ∧ row.op = op := by
  unfold Opcode.ofByte at h
  obtain ⟨row, hfind, hop⟩ := Option.map_eq_some_iff.1 h
  exact ⟨row, List.mem_of_find?_eq_some hfind, by simpa using List.find?_some hfind, hop⟩

/-- The decoder looks at the opcode first. -/
theorem decode_cons (b : Byte) (rest : List Byte) :
    decode (b :: rest) = match Opcode.ofByte b with
      | none => .error (.unknownOpcode b)
      | some op => decodeOperands op rest := rfl

/-- Operands fail to decode only by being missing, the first or the second. -/
theorem decodeOperands_error {op : Opcode} {bytes : List Byte} {e : DecodeError}
    (h : decodeOperands op bytes = .error e) :
    (bytes = [] ∧ e = .missingOperand 1) ∨ (∃ x, bytes = [x] ∧ e = .missingOperand 2) := by
  rcases bytes with _ | ⟨x, _ | ⟨y, rest⟩⟩ <;> cases op <;>
    simp only [decodeOperands, oneOperand, twoOperands, reduceCtorEq, Except.error.injEq] at h <;> simp [← h]

/-- Everything a failed decode can mean. -/
theorem decode_error_cases {bytes : List Byte} {e : DecodeError} (h : decode bytes = .error e) :
    (bytes = [] ∧ e = .noOpcode) ∨
      (∃ b rest, bytes = b :: rest ∧ Opcode.ofByte b = none ∧ e = .unknownOpcode b) ∨
      (∃ b op, bytes = [b] ∧ Opcode.ofByte b = some op ∧ e = .missingOperand 1) ∨
      (∃ b x op, bytes = [b, x] ∧ Opcode.ofByte b = some op ∧ e = .missingOperand 2) := by
  cases bytes with
  | nil => exact .inl ⟨rfl, by cases h; rfl⟩
  | cons b rest =>
    rw [decode_cons] at h
    cases hop : Opcode.ofByte b with
    | none =>
      rw [hop] at h
      exact .inr (.inl ⟨b, rest, rfl, hop, by cases h; rfl⟩)
    | some op =>
      rw [hop] at h
      obtain ⟨hb, he⟩ | ⟨x, hb, he⟩ := decodeOperands_error h
      · exact .inr (.inr (.inl ⟨b, op, by rw [hb], hop, he⟩))
      · exact .inr (.inr (.inr ⟨b, x, op, by rw [hb], hop, he⟩))

/-- An instruction has one, two or three bytes (R58). -/
theorem Instr.length_bounds (i : Instr) : 1 ≤ i.length ∧ i.length ≤ 3 := by
  cases i <;> simp [Instr.length, Instr.format, Format.length]

end Sys2Proof
end

