-- ==== Sys2Proof/Laws/Memory.lean ====
section
/-! SUPPORT. The laws of memory: a read after a write, and that a write keeps the canonical form. -/

namespace Sys2Proof.Machine

open Sys2Proof

@[simp] theorem Memory.read_nil (a : Nat) : Memory.read [] a = Config.absentByte := rfl

theorem Memory.read_removeCell (m : Memory) (a b : Nat) :
    (m.removeCell a).read b = if b = a then Config.absentByte else m.read b := by
  induction m with
  | nil => simp [Memory.removeCell]
  | cons c m ih =>
    obtain ⟨k, w⟩ := c
    simp only [Memory.removeCell] at ih
    by_cases hk : k = a
    · subst hk
      simp only [Memory.removeCell, Memory.read, List.filter, bne_self_eq_false, ih]
      split <;> rfl
    · by_cases hb : b = k
      · subst hb
        simp [Memory.removeCell, Memory.read, hk]
      · simp [Memory.removeCell, Memory.read, ih, hk, hb]

theorem Memory.read_insertCell (m : Memory) (a b : Nat) (v : Byte) (h : ∀ c ∈ m, c.1 ≠ a) :
    (m.insertCell a v).read b = if b = a then v else m.read b := by
  induction m with
  | nil => simp [Memory.insertCell, Memory.read]
  | cons c m ih =>
    obtain ⟨k, w⟩ := c
    have hk : k ≠ a := h (k, w) (by simp)
    have ih := ih (fun c hc => h c (by simp [hc]))
    unfold Memory.insertCell
    split
    · simp [Memory.read]
    · by_cases hb : b = k
      · subst hb
        simp [Memory.read, hk]
      · simp [Memory.read, ih, hb]

/-- A read after a write (R41): the cell written holds the value, every other cell is as before. It holds of every
list of cells. -/
theorem Memory.read_write (m : Memory) (a b : Nat) (v : Byte) :
    (m.write a v).read b = if b = a then v else m.read b := by
  unfold Memory.write
  split
  · next h => rw [Memory.read_removeCell, h]
  · rw [Memory.read_insertCell _ _ _ _ (by simp [Memory.removeCell]), Memory.read_removeCell]
    split <;> rfl

@[simp] theorem Memory.read_write_same (m : Memory) (a : Nat) (v : Byte) : (m.write a v).read a = v := by
  simp [Memory.read_write]

theorem Memory.read_write_other (m : Memory) {a b : Nat} (v : Byte) (h : b ≠ a) :
    (m.write a v).read b = m.read b := by
  simp [Memory.read_write, h]

theorem Memory.wfFrom_cons {lo k : Nat} {w : Byte} {m : Memory} :
    Memory.wfFrom lo ((k, w) :: m) = true ↔
      lo ≤ k ∧ k < Config.memSize ∧ w ≠ Config.absentByte ∧ Memory.wfFrom (k + 1) m = true := by
  simp [Memory.wfFrom, and_assoc]

theorem Memory.wfFrom_mono {lo lo' : Nat} {m : Memory} (h : Memory.wfFrom lo' m = true) (hl : lo ≤ lo') :
    Memory.wfFrom lo m = true := by
  cases m with
  | nil => rfl
  | cons c m =>
    obtain ⟨k, w⟩ := c
    rw [Memory.wfFrom_cons] at h ⊢
    exact ⟨le_trans hl h.1, h.2⟩

theorem Memory.wfFrom_removeCell {lo a : Nat} {m : Memory} (h : Memory.wfFrom lo m = true) :
    Memory.wfFrom lo (m.removeCell a) = true := by
  induction m generalizing lo with
  | nil => exact h
  | cons c m ih =>
    obtain ⟨k, w⟩ := c
    rw [Memory.wfFrom_cons] at h
    have ih := ih h.2.2.2
    by_cases hk : k = a
    · simpa [Memory.removeCell, hk] using Memory.wfFrom_mono (lo := lo) ih (by omega)
    · have : Memory.removeCell ((k, w) :: m) a = (k, w) :: Memory.removeCell m a := by
        simp [Memory.removeCell, hk]
      rw [this, Memory.wfFrom_cons]
      exact ⟨h.1, h.2.1, h.2.2.1, ih⟩

theorem Memory.wfFrom_insertCell {lo a : Nat} {v : Byte} {m : Memory} (h : Memory.wfFrom lo m = true)
    (hlo : lo ≤ a) (ha : a < Config.memSize) (hv : v ≠ Config.absentByte) (hm : ∀ c ∈ m, c.1 ≠ a) :
    Memory.wfFrom lo (m.insertCell a v) = true := by
  induction m generalizing lo with
  | nil => exact Memory.wfFrom_cons.2 ⟨hlo, ha, hv, rfl⟩
  | cons c m ih =>
    obtain ⟨k, w⟩ := c
    rw [Memory.wfFrom_cons] at h
    have hk : k ≠ a := hm (k, w) (by simp)
    unfold Memory.insertCell
    split
    · next hak =>
      exact Memory.wfFrom_cons.2 ⟨hlo, ha, hv, Memory.wfFrom_cons.2 ⟨hak, h.2⟩⟩
    · exact Memory.wfFrom_cons.2
        ⟨h.1, h.2.1, h.2.2.1, ih h.2.2.2 (by omega) (fun c hc => hm c (by simp [hc]))⟩

/-- A write to one of the 256 cells keeps the canonical form. -/
theorem Memory.write_wf {m : Memory} {a : Nat} {v : Byte} (h : m.wf = true) (ha : a < Config.memSize) :
    (m.write a v).wf = true := by
  unfold Memory.write
  split
  · exact Memory.wfFrom_removeCell h
  · next hv =>
    exact Memory.wfFrom_insertCell (Memory.wfFrom_removeCell h) (Nat.zero_le _) ha hv (by simp [Memory.removeCell])

/-- The canonical form holds of the memory a reset leaves. -/
theorem Memory.reset_wf : State.reset.mem.wf = true := rfl

end Sys2Proof.Machine
end

