-- ==== Sys2Proof/Laws/State.lean ====
section
/-! SUPPORT. One lemma per field per update of the state, and the register laws: no later proof unfolds an update. -/

namespace Sys2Proof.Machine

open Sys2Proof

variable (s : State)

@[simp] theorem State.raiseAt_mem (fpc : PcWord) (e : FatalError) : (s.raiseAt fpc e).mem = s.mem := rfl
@[simp] theorem State.raiseAt_regs (fpc : PcWord) (e : FatalError) : (s.raiseAt fpc e).regs = s.regs := rfl
@[simp] theorem State.raiseAt_pc (fpc : PcWord) (e : FatalError) : (s.raiseAt fpc e).pc = s.pc := rfl
@[simp] theorem State.raiseAt_fl (fpc : PcWord) (e : FatalError) : (s.raiseAt fpc e).fl = s.fl := rfl
@[simp] theorem State.raiseAt_runState (fpc : PcWord) (e : FatalError) : (s.raiseAt fpc e).runState = .faulted := rfl
@[simp] theorem State.raiseAt_fault (fpc : PcWord) (e : FatalError) : (s.raiseAt fpc e).fault = some ⟨e.kind, fpc, e.info⟩ := rfl
@[simp] theorem State.raiseAt_out (fpc : PcWord) (e : FatalError) : (s.raiseAt fpc e).out = s.out := rfl

@[simp] theorem State.raiseFatal_mem (e : FatalError) : (s.raiseFatal e).mem = s.mem := rfl
@[simp] theorem State.raiseFatal_regs (e : FatalError) : (s.raiseFatal e).regs = s.regs := rfl
@[simp] theorem State.raiseFatal_pc (e : FatalError) : (s.raiseFatal e).pc = s.pc := rfl
@[simp] theorem State.raiseFatal_fl (e : FatalError) : (s.raiseFatal e).fl = s.fl := rfl
@[simp] theorem State.raiseFatal_runState (e : FatalError) : (s.raiseFatal e).runState = .faulted := rfl
@[simp] theorem State.raiseFatal_fault (e : FatalError) : (s.raiseFatal e).fault = some ⟨e.kind, s.pc, e.info⟩ := rfl
@[simp] theorem State.raiseFatal_out (e : FatalError) : (s.raiseFatal e).out = s.out := rfl

@[simp] theorem State.setReg_mem (r : Reg) (v : Byte) : (s.setReg r v).mem = s.mem := rfl
@[simp] theorem State.setReg_regs (r : Reg) (v : Byte) : (s.setReg r v).regs = s.regs.set r v := rfl
@[simp] theorem State.setReg_pc (r : Reg) (v : Byte) : (s.setReg r v).pc = s.pc := rfl
@[simp] theorem State.setReg_fl (r : Reg) (v : Byte) : (s.setReg r v).fl = s.fl := rfl
@[simp] theorem State.setReg_runState (r : Reg) (v : Byte) : (s.setReg r v).runState = s.runState := rfl
@[simp] theorem State.setReg_fault (r : Reg) (v : Byte) : (s.setReg r v).fault = s.fault := rfl
@[simp] theorem State.setReg_out (r : Reg) (v : Byte) : (s.setReg r v).out = s.out := rfl

@[simp] theorem State.setSp_mem (v : Byte) : (s.setSp v).mem = s.mem := rfl
@[simp] theorem State.setSp_regs (v : Byte) : (s.setSp v).regs = s.regs.set Config.spIndex v := rfl
@[simp] theorem State.setSp_pc (v : Byte) : (s.setSp v).pc = s.pc := rfl
@[simp] theorem State.setSp_fl (v : Byte) : (s.setSp v).fl = s.fl := rfl
@[simp] theorem State.setSp_runState (v : Byte) : (s.setSp v).runState = s.runState := rfl
@[simp] theorem State.setSp_fault (v : Byte) : (s.setSp v).fault = s.fault := rfl
@[simp] theorem State.setSp_out (v : Byte) : (s.setSp v).out = s.out := rfl

@[simp] theorem State.setPc_mem (target : PcWord) : (s.setPc target).mem = s.mem := rfl
@[simp] theorem State.setPc_regs (target : PcWord) : (s.setPc target).regs = s.regs := rfl
@[simp] theorem State.setPc_pc (target : PcWord) : (s.setPc target).pc = target := rfl
@[simp] theorem State.setPc_fl (target : PcWord) : (s.setPc target).fl = s.fl := rfl
@[simp] theorem State.setPc_runState (target : PcWord) : (s.setPc target).runState = s.runState := rfl
@[simp] theorem State.setPc_fault (target : PcWord) : (s.setPc target).fault = s.fault := rfl
@[simp] theorem State.setPc_out (target : PcWord) : (s.setPc target).out = s.out := rfl

@[simp] theorem State.advance_mem (n : Nat) : (s.advance n).mem = s.mem := rfl
@[simp] theorem State.advance_regs (n : Nat) : (s.advance n).regs = s.regs := rfl
@[simp] theorem State.advance_pc (n : Nat) : (s.advance n).pc = s.pc + BitVec.ofNat 9 n := rfl
@[simp] theorem State.advance_fl (n : Nat) : (s.advance n).fl = s.fl := rfl
@[simp] theorem State.advance_runState (n : Nat) : (s.advance n).runState = s.runState := rfl
@[simp] theorem State.advance_fault (n : Nat) : (s.advance n).fault = s.fault := rfl
@[simp] theorem State.advance_out (n : Nat) : (s.advance n).out = s.out := rfl

@[simp] theorem State.jumpTo_mem (target : Byte) : (s.jumpTo target).mem = s.mem := rfl
@[simp] theorem State.jumpTo_regs (target : Byte) : (s.jumpTo target).regs = s.regs := rfl
@[simp] theorem State.jumpTo_pc (target : Byte) : (s.jumpTo target).pc = zext9 target := rfl
@[simp] theorem State.jumpTo_fl (target : Byte) : (s.jumpTo target).fl = s.fl := rfl
@[simp] theorem State.jumpTo_runState (target : Byte) : (s.jumpTo target).runState = s.runState := rfl
@[simp] theorem State.jumpTo_fault (target : Byte) : (s.jumpTo target).fault = s.fault := rfl
@[simp] theorem State.jumpTo_out (target : Byte) : (s.jumpTo target).out = s.out := rfl

@[simp] theorem State.setFlags_mem (f : Flags) : (s.setFlags f).mem = s.mem := rfl
@[simp] theorem State.setFlags_regs (f : Flags) : (s.setFlags f).regs = s.regs := rfl
@[simp] theorem State.setFlags_pc (f : Flags) : (s.setFlags f).pc = s.pc := rfl
@[simp] theorem State.setFlags_fl (f : Flags) : (s.setFlags f).fl = f := rfl
@[simp] theorem State.setFlags_runState (f : Flags) : (s.setFlags f).runState = s.runState := rfl
@[simp] theorem State.setFlags_fault (f : Flags) : (s.setFlags f).fault = s.fault := rfl
@[simp] theorem State.setFlags_out (f : Flags) : (s.setFlags f).out = s.out := rfl

@[simp] theorem State.emit_mem (v : Byte) : (s.emit v).mem = s.mem := rfl
@[simp] theorem State.emit_regs (v : Byte) : (s.emit v).regs = s.regs := rfl
@[simp] theorem State.emit_pc (v : Byte) : (s.emit v).pc = s.pc := rfl
@[simp] theorem State.emit_fl (v : Byte) : (s.emit v).fl = s.fl := rfl
@[simp] theorem State.emit_runState (v : Byte) : (s.emit v).runState = s.runState := rfl
@[simp] theorem State.emit_fault (v : Byte) : (s.emit v).fault = s.fault := rfl
@[simp] theorem State.emit_out (v : Byte) : (s.emit v).out = s.out ++ [v] := rfl

@[simp] theorem State.setRunState_mem (r : RunState) : (s.setRunState r).mem = s.mem := rfl
@[simp] theorem State.setRunState_regs (r : RunState) : (s.setRunState r).regs = s.regs := rfl
@[simp] theorem State.setRunState_pc (r : RunState) : (s.setRunState r).pc = s.pc := rfl
@[simp] theorem State.setRunState_fl (r : RunState) : (s.setRunState r).fl = s.fl := rfl
@[simp] theorem State.setRunState_runState (r : RunState) : (s.setRunState r).runState = r := rfl
@[simp] theorem State.setRunState_fault (r : RunState) : (s.setRunState r).fault = s.fault := rfl
@[simp] theorem State.setRunState_out (r : RunState) : (s.setRunState r).out = s.out := rfl

@[simp] theorem State.writeCell_mem (a v : Byte) : (s.writeCell a v).mem = s.mem.write a.toNat v := rfl
@[simp] theorem State.writeCell_regs (a v : Byte) : (s.writeCell a v).regs = s.regs := rfl
@[simp] theorem State.writeCell_pc (a v : Byte) : (s.writeCell a v).pc = s.pc := rfl
@[simp] theorem State.writeCell_fl (a v : Byte) : (s.writeCell a v).fl = s.fl := rfl
@[simp] theorem State.writeCell_runState (a v : Byte) : (s.writeCell a v).runState = s.runState := rfl
@[simp] theorem State.writeCell_fault (a v : Byte) : (s.writeCell a v).fault = s.fault := rfl
@[simp] theorem State.writeCell_out (a v : Byte) : (s.writeCell a v).out = s.out := rfl

@[simp] theorem State.pushByte_mem (v : Byte) : (s.pushByte v).mem = s.mem.write s.pushAddr.toNat v := rfl
@[simp] theorem State.pushByte_regs (v : Byte) : (s.pushByte v).regs = s.regs.set Config.spIndex s.pushAddr := rfl
@[simp] theorem State.pushByte_pc (v : Byte) : (s.pushByte v).pc = s.pc := rfl
@[simp] theorem State.pushByte_fl (v : Byte) : (s.pushByte v).fl = s.fl := rfl
@[simp] theorem State.pushByte_runState (v : Byte) : (s.pushByte v).runState = s.runState := rfl
@[simp] theorem State.pushByte_fault (v : Byte) : (s.pushByte v).fault = s.fault := rfl
@[simp] theorem State.pushByte_out (v : Byte) : (s.pushByte v).out = s.out := rfl

@[simp] theorem State.popInto_mem (r : Reg) (v : Byte) : (s.popInto r v).mem = s.mem := by
  unfold State.popInto
  split <;> rfl
@[simp] theorem State.popInto_regs (r : Reg) (v : Byte) : (s.popInto r v).regs = if r = Config.spIndex then s.regs.set Config.spIndex (v + 1)
      else (s.regs.set r v).set Config.spIndex (s.sp + 1) := by
  unfold State.popInto
  split <;> rfl
@[simp] theorem State.popInto_pc (r : Reg) (v : Byte) : (s.popInto r v).pc = s.pc := by
  unfold State.popInto
  split <;> rfl
@[simp] theorem State.popInto_fl (r : Reg) (v : Byte) : (s.popInto r v).fl = s.fl := by
  unfold State.popInto
  split <;> rfl
@[simp] theorem State.popInto_runState (r : Reg) (v : Byte) : (s.popInto r v).runState = s.runState := by
  unfold State.popInto
  split <;> rfl
@[simp] theorem State.popInto_fault (r : Reg) (v : Byte) : (s.popInto r v).fault = s.fault := by
  unfold State.popInto
  split <;> rfl
@[simp] theorem State.popInto_out (r : Reg) (v : Byte) : (s.popInto r v).out = s.out := by
  unfold State.popInto
  split <;> rfl

/-- A register reads as last written, and a write leaves every other register alone (R17). -/
theorem State.getReg_setReg (r q : Reg) (v : Byte) :
    (s.setReg r v).getReg q = if q = r then v else s.getReg q := by
  simp [State.getReg, State.setReg, Vector.getElem_set, Fin.ext_iff, eq_comm]

@[simp] theorem State.getReg_setReg_same (r : Reg) (v : Byte) : (s.setReg r v).getReg r = v := by
  simp [State.getReg_setReg]

@[simp] theorem State.sp_setSp (v : Byte) : (s.setSp v).sp = v := State.getReg_setReg_same s _ v

/-- Reading a register depends on the register file alone. -/
theorem State.getReg_congr {s t : State} (h : t.regs = s.regs) (r : Reg) : t.getReg r = s.getReg r := by
  simp [State.getReg, h]

/-- Writing a register the value it holds changes nothing. -/
theorem State.setReg_getReg (r : Reg) : s.setReg r (s.getReg r) = s := by
  simp [State.getReg, State.setReg]

end Sys2Proof.Machine
end

