-- ==== Sys2Proof/Laws/Operands.lean ====
section
/-! SUPPORT. What the shared checks and transactions can answer: `regIdx`, `checkAddr`, `transaction`. -/

namespace Sys2Proof.Machine

open Sys2Proof

@[simp] theorem regByte_toNat (r : Reg) : (regByte r).toNat = r.val := by
  simp only [regByte, BitVec.toNat_ofNat]
  omega

/-- The operand byte of a register names that register. -/
@[simp] theorem regIdx_regByte (r : Reg) : regIdx (regByte r) = .ok r := by
  simp [regIdx]

/-- An operand byte above 7 names no register (R18). -/
theorem regIdx_of_gt {b : Byte} (h : 7 < b.toNat) : regIdx b = .error (addressReg b) := by
  simp [regIdx, show ¬ b.toNat < 8 by omega]

/-- Everything `regIdx` can answer. -/
theorem regIdx_cases (b : Byte) :
    (∃ r : Reg, b = regByte r ∧ regIdx b = .ok r) ∨ (7 < b.toNat ∧ regIdx b = .error (addressReg b)) := by
  by_cases h : b.toNat < 8
  · refine .inl ⟨⟨b.toNat, h⟩, ?_, by simp [regIdx, h]⟩
    simp [regByte]
  · exact .inr ⟨by omega, regIdx_of_gt (by omega)⟩

/-- A byte that names a register is that register's operand byte. -/
theorem regByte_of_namesReg {b : Byte} (h : namesReg b = true) : ∃ r, b = regByte r := by
  obtain ⟨r, hb, -⟩ | ⟨hb, -⟩ := regIdx_cases b
  · exact ⟨r, hb⟩
  · have : b.toNat < 8 := of_decide_eq_true h
    omega

/-- A byte that names no register is above 7. -/
theorem gt_of_not_namesReg {b : Byte} (h : namesReg b = false) : 7 < b.toNat := by
  have : ¬ b.toNat < 8 := of_decide_eq_false h
  omega

theorem checkAddr_of_le {a : PcWord} (h : a.toNat ≤ 255) : checkAddr a = .ok (a.setWidth 8) := by
  simp [checkAddr, show ¬ 255 < a.toNat by omega]

theorem checkAddr_of_gt {a : PcWord} (h : 255 < a.toNat) : checkAddr a = .error (addressMem a) := by
  simp [checkAddr, h]

/-- A read inside memory (R12). -/
theorem State.memRead_of_le (s : State) {a : PcWord} (h : a.toNat ≤ 255) : s.memRead a = .ok (s.mem.read a.toNat) := by
  have width : (a.setWidth 8).toNat = a.toNat := by
    rw [BitVec.toNat_setWidth]
    omega
  simp [State.memRead, checkAddr_of_le h, State.readCell, width]

/-- A read outside memory (R36). -/
theorem State.memRead_of_gt (s : State) {a : PcWord} (h : 255 < a.toNat) : s.memRead a = .error (addressMem a) := by
  simp [State.memRead, checkAddr_of_gt h]

/-- A write inside memory (R12). -/
theorem State.memWrite_of_le (s : State) {a : PcWord} (v : Byte) (h : a.toNat ≤ 255) :
    s.memWrite a v = .ok { s with mem := s.mem.write a.toNat v } := by
  have width : (a.setWidth 8).toNat = a.toNat := by
    rw [BitVec.toNat_setWidth]
    omega
  simp [State.memWrite, checkAddr_of_le h, State.writeCell, width]

/-- A write outside memory (R36). -/
theorem State.memWrite_of_gt (s : State) {a : PcWord} (v : Byte) (h : 255 < a.toNat) :
    s.memWrite a v = .error (addressMem a) := by
  simp [State.memWrite, checkAddr_of_gt h]

@[simp] theorem transaction_ok (s t : State) : transaction s (.ok t) = .next t := rfl

@[simp] theorem transaction_error (s : State) (e : FatalError) :
    transaction s (.error e) = .next (s.raiseFatal e) := rfl

/-- A transaction commits what it computed, or enters the fatal error it raised (R13). -/
theorem transaction_eq_next {s t : State} {m : Except FatalError State} (h : transaction s m = .next t) :
    m = .ok t ∨ ∃ e, m = .error e ∧ t = s.raiseFatal e := by
  cases m with
  | ok s' => exact .inl (by cases h; rfl)
  | error e => exact .inr ⟨e, rfl, by cases h; rfl⟩

/-- A transaction always answers a next state. -/
theorem transaction_answers (s : State) (m : Except FatalError State) : ∃ t, transaction s m = .next t := by
  cases m with
  | ok s' => exact ⟨_, rfl⟩
  | error e => exact ⟨_, rfl⟩

/-- R90's entry, as the statements write it. -/
theorem State.raiseFatal_eq_endedBy (s : State) (e : FatalError) : s.raiseFatal e = s.endedBy e.kind e.info := rfl

end Sys2Proof.Machine
end

