-- ==== Sys2Proof/Laws/Exec.lean ====
section
/-! SUPPORT. Everything each instruction can do: one inversion lemma per meaning, cited instead of unfolding it. -/

namespace Sys2Proof.Machine

open Sys2Proof

variable {s t : State}

/-- An instruction of one register operand: its effect on the register named, or R18's AddressError. -/
theorem oneReg_cases {b : Byte} {f : Reg → Except FatalError State}
    (h : transaction s (regIdx b >>= f) = .next t) :
    (∃ r, b = regByte r ∧ transaction s (f r) = .next t) ∨ (7 < b.toNat ∧ t = s.raiseFatal (addressReg b)) := by
  obtain ⟨r, hb, hr⟩ | ⟨hb, hr⟩ := regIdx_cases b
  · rw [hr] at h
    exact .inl ⟨r, hb, h⟩
  · rw [hr] at h
    cases h
    exact .inr ⟨hb, rfl⟩

theorem execHlt_cases (h : exec .hlt s = .next t) : t = s.setRunState .halted := by
  cases h
  rfl

theorem execRet_cases (h : exec .ret s = .next t) : t = (s.setSp (s.sp + 1)).jumpTo s.popValue := by
  cases h
  rfl

theorem execLdi_cases {b imm : Byte} (h : exec (.ldi b imm) s = .next t) :
    (∃ r, b = regByte r ∧ t = (s.setReg r imm).advance 3) ∨ (7 < b.toNat ∧ t = s.raiseFatal (addressReg b)) := by
  obtain ⟨r, hb, h⟩ | h := oneReg_cases h
  · cases h
    exact .inl ⟨r, hb, rfl⟩
  · exact .inr h

theorem execPrn_cases {b : Byte} (h : exec (.prn b) s = .next t) :
    (∃ r, b = regByte r ∧ t = (s.emit (s.getReg r)).advance 2) ∨
      (7 < b.toNat ∧ t = s.raiseFatal (addressReg b)) := by
  obtain ⟨r, hb, h⟩ | h := oneReg_cases h
  · cases h
    exact .inl ⟨r, hb, rfl⟩
  · exact .inr h

theorem execPush_cases {b : Byte} (h : exec (.push b) s = .next t) :
    (∃ r, b = regByte r ∧ t = (s.pushByte (s.readAfterDecrement r)).advance 2) ∨
      (7 < b.toNat ∧ t = s.raiseFatal (addressReg b)) := by
  obtain ⟨r, hb, h⟩ | h := oneReg_cases h
  · cases h
    exact .inl ⟨r, hb, rfl⟩
  · exact .inr h

theorem execPop_cases {b : Byte} (h : exec (.pop b) s = .next t) :
    (∃ r, b = regByte r ∧ t = (s.popInto r s.popValue).advance 2) ∨
      (7 < b.toNat ∧ t = s.raiseFatal (addressReg b)) := by
  obtain ⟨r, hb, h⟩ | h := oneReg_cases h
  · cases h
    exact .inl ⟨r, hb, rfl⟩
  · exact .inr h

theorem jumpIf_cases {taken : Bool} {b : Byte} (h : transaction s (jumpIf taken b s) = .next t) :
    (∃ r, b = regByte r ∧ t = if taken then s.jumpTo (s.getReg r) else s.advance 2) ∨
      (7 < b.toNat ∧ t = s.raiseFatal (addressReg b)) := by
  obtain ⟨r, hb, h⟩ | h := oneReg_cases h
  · cases h
    exact .inl ⟨r, hb, rfl⟩
  · exact .inr h

theorem execJmp_cases {b : Byte} (h : exec (.jmp b) s = .next t) :
    (∃ r, b = regByte r ∧ t = s.jumpTo (s.getReg r)) ∨ (7 < b.toNat ∧ t = s.raiseFatal (addressReg b)) :=
  jumpIf_cases (taken := true) h

theorem execJeq_cases {b : Byte} (h : exec (.jeq b) s = .next t) :
    (∃ r, b = regByte r ∧ t = if s.fl.e then s.jumpTo (s.getReg r) else s.advance 2) ∨
      (7 < b.toNat ∧ t = s.raiseFatal (addressReg b)) :=
  jumpIf_cases h

theorem execJne_cases {b : Byte} (h : exec (.jne b) s = .next t) :
    (∃ r, b = regByte r ∧ t = if !s.fl.e then s.jumpTo (s.getReg r) else s.advance 2) ∨
      (7 < b.toNat ∧ t = s.raiseFatal (addressReg b)) :=
  jumpIf_cases h

theorem execCall_cases {b : Byte} (h : exec (.call b) s = .next t) :
    (∃ r, b = regByte r ∧ (s.pc + 2).toNat ≤ 255 ∧
        t = (s.pushByte ((s.pc + 2).setWidth 8)).jumpTo (s.readAfterDecrement r)) ∨
      (∃ r, b = regByte r ∧ 255 < (s.pc + 2).toNat ∧ t = s.raiseFatal (addressMem (s.pc + 2))) ∨
      (7 < b.toNat ∧ t = s.raiseFatal (addressReg b)) := by
  obtain ⟨r, hb, h⟩ | h := oneReg_cases h
  · by_cases hp : (s.pc + 2).toNat ≤ 255
    · simp only [returnAddress, checkAddr_of_le hp] at h
      cases h
      exact .inl ⟨r, hb, hp, rfl⟩
    · simp only [returnAddress, checkAddr_of_gt (Nat.lt_of_not_le hp)] at h
      cases h
      exact .inr (.inl ⟨r, hb, Nat.lt_of_not_le hp, rfl⟩)
  · exact .inr (.inr h)

theorem aluInstruction_cases {kind : AluKind} {a b : Byte}
    (h : transaction s (aluInstruction kind a b s) = .next t) :
    (∃ ra rb, a = regByte ra ∧ b = regByte rb ∧
        ((∃ s', alu kind ra rb s = .ok s' ∧ t = s'.advance 3) ∨
          ∃ e, alu kind ra rb s = .error e ∧ t = s.raiseFatal e)) ∨
      (7 < a.toNat ∧ t = s.raiseFatal (addressReg a)) ∨
      (∃ ra, a = regByte ra ∧ 7 < b.toNat ∧ t = s.raiseFatal (addressReg b)) := by
  obtain ⟨ra, ha, h⟩ | h := oneReg_cases h
  · obtain ⟨rb, hb, h⟩ | h := oneReg_cases h
    · cases hr : alu kind ra rb s with
      | ok s' =>
        rw [hr] at h
        cases h
        exact .inl ⟨ra, rb, ha, hb, .inl ⟨s', hr, rfl⟩⟩
      | error e =>
        rw [hr] at h
        cases h
        exact .inl ⟨ra, rb, ha, hb, .inr ⟨e, hr, rfl⟩⟩
    · exact .inr (.inr ⟨ra, ha, h⟩)
  · exact .inr (.inl h)

theorem execMul_cases {a b : Byte} (h : exec (.mul a b) s = .next t) :
    (∃ ra rb, a = regByte ra ∧ b = regByte rb ∧
        t = (s.setReg ra (trunc8 ((s.getReg ra).toNat * (s.getReg rb).toNat))).advance 3) ∨
      (7 < a.toNat ∧ t = s.raiseFatal (addressReg a)) ∨
      (∃ ra, a = regByte ra ∧ 7 < b.toNat ∧ t = s.raiseFatal (addressReg b)) := by
  obtain ⟨ra, rb, ha, hb, ⟨s', hs, ht⟩ | ⟨e, he, -⟩⟩ | h := aluInstruction_cases h
  · cases hs
    exact .inl ⟨ra, rb, ha, hb, ht⟩
  · cases he
  · exact .inr h

theorem execCmp_cases {a b : Byte} (h : exec (.cmp a b) s = .next t) :
    (∃ ra rb, a = regByte ra ∧ b = regByte rb ∧
        t = (s.setFlags (compareFlags (s.getReg ra) (s.getReg rb))).advance 3) ∨
      (7 < a.toNat ∧ t = s.raiseFatal (addressReg a)) ∨
      (∃ ra, a = regByte ra ∧ 7 < b.toNat ∧ t = s.raiseFatal (addressReg b)) := by
  obtain ⟨ra, rb, ha, hb, ⟨s', hs, ht⟩ | ⟨e, he, -⟩⟩ | h := aluInstruction_cases h
  · cases hs
    exact .inl ⟨ra, rb, ha, hb, ht⟩
  · cases he
  · exact .inr h

/-- Every instruction, in every state, answers a next state: its effect or the entry into a fatal error. -/
theorem exec_answers (i : Instr) (s : State) : ∃ t, exec i s = .next t := by
  cases i with
  | hlt => exact ⟨_, rfl⟩
  | ret => exact ⟨_, rfl⟩
  | _ => exact transaction_answers _ _

end Sys2Proof.Machine
end

