-- ==== Sys2Proof/Laws/Fetch.lean ====
section
/-! SUPPORT. What fetching and decoding can answer (R92, steps 1 to 3), and what a step is. -/

namespace Sys2Proof.Machine

open Sys2Proof

variable {s t : State}

/-- A byte fetched inside memory. -/
theorem State.bytesFrom_of_le {a : PcWord} (n : Nat) (h : a.toNat ≤ 255) :
    s.bytesFrom a (n + 1) = s.mem.read a.toNat :: s.bytesFrom (a + 1) n := by
  simp [State.bytesFrom, s.memRead_of_le h]

/-- No byte is fetched outside memory. -/
theorem State.bytesFrom_of_gt {a : PcWord} (n : Nat) (h : 255 < a.toNat) : s.bytesFrom a (n + 1) = [] := by
  simp [State.bytesFrom, s.memRead_of_gt h]

theorem State.fetchWindow_of_pc_ge (h : 256 ≤ s.pc.toNat) : s.fetchWindow = [] :=
  State.bytesFrom_of_gt 2 h

theorem PcWord.toNat_add_one {a : PcWord} (h : a.toNat ≤ 255) : (a + 1).toNat = a.toNat + 1 := by
  rw [BitVec.toNat_add]
  exact Nat.mod_eq_of_lt (Nat.lt_of_le_of_lt (Nat.add_le_add_right h 1) (by decide))

theorem State.fetchWindow_of_pc_255 (h : s.pc.toNat = 255) : s.fetchWindow = [s.mem.read 255] := by
  have h1 := PcWord.toNat_add_one (a := s.pc) (by omega)
  rw [State.fetchWindow, State.bytesFrom_of_le 2 (by omega), State.bytesFrom_of_gt 1 (by omega), h]

theorem State.fetchWindow_of_pc_254 (h : s.pc.toNat = 254) :
    s.fetchWindow = [s.mem.read 254, s.mem.read 255] := by
  have h1 := PcWord.toNat_add_one (a := s.pc) (by omega)
  have h2 := PcWord.toNat_add_one (a := s.pc + 1) (by omega)
  rw [State.fetchWindow, State.bytesFrom_of_le 2 (by omega), State.bytesFrom_of_le 1 (by omega),
    State.bytesFrom_of_gt 0 (by omega), h1, h]

theorem State.fetchWindow_of_pc_le (h : s.pc.toNat ≤ 253) :
    s.fetchWindow =
      [s.mem.read s.pc.toNat, s.mem.read (s.pc.toNat + 1), s.mem.read (s.pc.toNat + 2)] := by
  have h1 := PcWord.toNat_add_one (a := s.pc) (by omega)
  have h2 := PcWord.toNat_add_one (a := s.pc + 1) (by omega)
  rw [State.fetchWindow, State.bytesFrom_of_le 2 (by omega), State.bytesFrom_of_le 1 (by omega),
    State.bytesFrom_of_le 0 (by omega), h2, h1]
  rfl

/-- What a step of a RUNNING CORE is (R70). -/
theorem step_of_running (h : s.runState = .running) :
    step s = match s.fetchInstr with
      | .ok i => exec i s
      | .error e => .next (s.raiseFatal e) := by
  cases hf : s.fetchInstr <;> simp [step, h, hf]

/-- Only a RUNNING CORE has a next state (R70). -/
theorem running_of_step (h : step s = .next t) : s.runState = .running := by
  cases hr : s.runState <;> simp [step, hr, State.stepInLoad, State.stepInHalted, State.stepInFaulted] at h ⊢

/-- Everything a step can do: run the instruction fetched, or enter the error of fetching it. -/
theorem step_cases (h : step s = .next t) :
    (∃ i, s.fetchInstr = .ok i ∧ exec i s = .next t) ∨ (∃ e, s.fetchInstr = .error e ∧ t = s.raiseFatal e) := by
  have hr := running_of_step h
  rw [step_of_running hr] at h
  cases hf : s.fetchInstr with
  | ok i =>
    rw [hf] at h
    exact .inl ⟨i, rfl, h⟩
  | error e =>
    rw [hf] at h
    cases h
    exact .inr ⟨e, rfl, rfl⟩

/-- Why a fetch fails: the decoder's reason for the bytes at `pc`. -/
theorem fetchInstr_error_cases {e : FatalError} (h : s.fetchInstr = .error e) :
    ∃ d, decode s.fetchWindow = .error d ∧ e = s.fetchError d := by
  unfold State.fetchInstr at h
  split at h
  · cases h
  · next d hd => exact ⟨d, hd, by cases h; rfl⟩

/-- Bytes that are an instruction's encoding, with more after them, are fetched as it. -/
theorem fetchInstr_of_decode {i : Instr} {rest : List Byte} (h : decode s.fetchWindow = .ok (i, rest)) :
    s.fetchInstr = .ok i := by
  simp [State.fetchInstr, h]

end Sys2Proof.Machine
end

