-- ==== Sys2Proof/Laws/Host.lean ====
section
/-! SUPPORT. What the host's inspection shows of the fault (R88, R95): one lemma per case, and that nothing is lost. -/

namespace Sys2Proof.Machine

open Sys2Proof

/-- Different kinds have different codes (R88). -/
theorem ErrorKind.code_injective {k k' : ErrorKind} (h : k.code = k'.code) : k = k' := by
  cases k <;> cases k' <;> first | rfl | cases h

/-- No kind has code 0: it stands for "no fault" (R88). -/
theorem ErrorKind.code_pos (k : ErrorKind) : 0 < k.code := by cases k <;> decide

@[simp] theorem faultReport_none : faultReport none = { code := 0, fpc := none, info := .none } := rfl

@[simp] theorem faultReport_some (r : FaultRecord) :
    faultReport (some r) = { code := r.kind.code, fpc := some r.fpc, info := r.info } := rfl

/-- The report shows the whole fault: code 0 tells no fault from a record, and a record's code its kind. -/
theorem faultReport_injective {f f' : Option FaultRecord} (h : faultReport f = faultReport f') : f = f' := by
  match f, f' with
  | none, none => rfl
  | none, some r => simp at h
  | some r, none => simp at h
  | some ⟨kind, fpc, info⟩, some ⟨kind', fpc', info'⟩ =>
    simp only [faultReport_some, FaultReport.mk.injEq, Option.some.injEq] at h
    obtain ⟨hcode, rfl, rfl⟩ := h
    rw [ErrorKind.code_injective hcode]

@[simp] theorem inspect_fault (s : State) : (inspect s).fault = faultReport s.fault := rfl

end Sys2Proof.Machine
end

