-- ==== Sys2Proof/Laws/PerInstr.lean ====
section
/-! SUPPORT. The family EncodedForm: each instruction's encoding begins with its row's byte in the opcode map and is as
long as its format says (R51, R52, R55). -/

namespace Sys2Proof.Laws.EncodedForm

open Sys2Proof

/-- The row of the opcode map that stands for the instruction gives its first byte and its length. -/
def Statement (i : Instr) : Prop :=
  ∃ row ∈ opcodeTable, row.op = i.opcode ∧ row.format = i.format ∧
    (encode i).head? = some row.byte ∧ (encode i).length = row.format.length

theorem hlt : Statement .hlt := ⟨⟨0x01, .hlt, .f0⟩, by simp [opcodeTable], rfl, rfl, rfl, rfl⟩

theorem ret : Statement .ret := ⟨⟨0x11, .ret, .f0⟩, by simp [opcodeTable], rfl, rfl, rfl, rfl⟩

theorem push (r : Byte) : Statement (.push r) := ⟨⟨0x45, .push, .f1r⟩, by simp [opcodeTable], rfl, rfl, rfl, rfl⟩

theorem pop (r : Byte) : Statement (.pop r) := ⟨⟨0x46, .pop, .f1r⟩, by simp [opcodeTable], rfl, rfl, rfl, rfl⟩

theorem prn (r : Byte) : Statement (.prn r) := ⟨⟨0x47, .prn, .f1r⟩, by simp [opcodeTable], rfl, rfl, rfl, rfl⟩

theorem call (r : Byte) : Statement (.call r) := ⟨⟨0x50, .call, .f1r⟩, by simp [opcodeTable], rfl, rfl, rfl, rfl⟩

theorem jmp (r : Byte) : Statement (.jmp r) := ⟨⟨0x54, .jmp, .f1r⟩, by simp [opcodeTable], rfl, rfl, rfl, rfl⟩

theorem jeq (r : Byte) : Statement (.jeq r) := ⟨⟨0x55, .jeq, .f1r⟩, by simp [opcodeTable], rfl, rfl, rfl, rfl⟩

theorem jne (r : Byte) : Statement (.jne r) := ⟨⟨0x56, .jne, .f1r⟩, by simp [opcodeTable], rfl, rfl, rfl, rfl⟩

theorem ldi (r imm : Byte) : Statement (.ldi r imm) :=
  ⟨⟨0x82, .ldi, .f2ri⟩, by simp [opcodeTable], rfl, rfl, rfl, rfl⟩

theorem mul (a b : Byte) : Statement (.mul a b) :=
  ⟨⟨0xA2, .mul, .f2rr⟩, by simp [opcodeTable], rfl, rfl, rfl, rfl⟩

theorem cmp (a b : Byte) : Statement (.cmp a b) :=
  ⟨⟨0xA7, .cmp, .f2rr⟩, by simp [opcodeTable], rfl, rfl, rfl, rfl⟩

end Sys2Proof.Laws.EncodedForm
end

