-- ==== Sys2Proof/Laws/Text.lean ====
section
/-! SUPPORT. The small laws of the host's text formats: digits, blanks, trimming and splitting. -/

namespace Sys2Proof.Machine

open Sys2Proof

theorem digitChar_toNat (n : Nat) : (digitChar n).toNat = 48 + n % 10 := by
  have digits : ∀ k : Fin 10, (Char.ofNat (48 + k)).toNat = 48 + k := by decide
  exact digits ⟨n % 10, by omega⟩

theorem digitValue_digitChar (n : Nat) : digitValue (digitChar n) = some (n % 10) := by
  unfold digitValue
  simp only [digitChar_toNat]
  rw [if_pos (by omega)]
  simp

/-- A byte has one, two or three decimal digits. -/
theorem decimalDigits_cases (v : Byte) :
    (v.toNat < 10 ∧ decimalDigits v = [digitChar v.toNat]) ∨
      (10 ≤ v.toNat ∧ v.toNat < 100 ∧ decimalDigits v = [digitChar (v.toNat / 10), digitChar v.toNat]) ∨
      (100 ≤ v.toNat ∧
        decimalDigits v = [digitChar (v.toNat / 100), digitChar (v.toNat / 10), digitChar v.toNat]) := by
  by_cases h : v.toNat < 10
  · exact .inl ⟨h, by simp [decimalDigits, h]⟩
  · by_cases h' : v.toNat < 100
    · exact .inr (.inl ⟨by omega, h', by simp [decimalDigits, h, h']⟩)
    · exact .inr (.inr ⟨by omega, by simp [decimalDigits, h, h']⟩)

/-- Text with no blank in it is not trimmed. -/
theorem trimBlanks_of_no_blank {text : List Char} (h : ∀ c ∈ text, isBlank c = false) : trimBlanks text = text := by
  have front : ∀ l : List Char, (∀ c ∈ l, isBlank c = false) → l.dropWhile isBlank = l := by
    intro l hl
    cases l with
    | nil => rfl
    | cons c l => simp [List.dropWhile, hl c (by simp)]
  unfold trimBlanks
  rw [front text h, front _ (by simpa using h), List.reverse_reverse]

/-- Every operation's mnemonic names it, and holds no blank. -/
theorem opcodeOfMnemonic_mnemonicOf (op : Opcode) :
    opcodeOfMnemonic (mnemonicOf op) = some op ∧ ∀ c ∈ mnemonicOf op, isBlank c = false := by
  cases op <;> exact ⟨by simp [opcodeOfMnemonic, opcodeTable, mnemonicOf], by simp [mnemonicOf, isBlank]⟩

end Sys2Proof.Machine
end

