-- ==== Sys2Proof/Tests/Slice0.lean ====
section
/-! SUPPORT. The model's own tests. Expected results are the vectors of 95_test_vectors.md (section named at each) or
follow from a rule's worked example; then a witness for the hypotheses of each statement. -/

namespace Sys2Proof.Tests

open Sys2Proof Sys2Proof.Machine

/-! ## Well-formedness: one ill-formed term for each check -/

theorem test_illFormed_push : (Instr.push 8).wellFormed = false := by decide
theorem test_illFormed_pop : (Instr.pop 8).wellFormed = false := by decide
theorem test_illFormed_prn : (Instr.prn 255).wellFormed = false := by decide
theorem test_illFormed_call : (Instr.call 8).wellFormed = false := by decide
theorem test_illFormed_jmp : (Instr.jmp 8).wellFormed = false := by decide
theorem test_illFormed_jeq : (Instr.jeq 9).wellFormed = false := by decide
theorem test_illFormed_jne : (Instr.jne 8).wellFormed = false := by decide
theorem test_illFormed_ldi : (Instr.ldi 8 1).wellFormed = false := by decide
theorem test_illFormed_mul_first : (Instr.mul 8 1).wellFormed = false := by decide
theorem test_illFormed_mul_second : (Instr.mul 1 9).wellFormed = false := by decide
theorem test_illFormed_cmp_first : (Instr.cmp 8 0).wellFormed = false := by decide
theorem test_illFormed_cmp_second : (Instr.cmp 0 10).wellFormed = false := by decide
theorem test_wellFormed_immediate_is_free : (Instr.ldi 7 255).wellFormed = true := by decide

/-! ## Decoding: words written out bit by bit from R51 and R55 -/

theorem test_decode_hlt : decode [0b00000001] = .ok (.hlt, []) := by rfl
theorem test_decode_ret : decode [0b00010001] = .ok (.ret, []) := by rfl
theorem test_decode_push : decode [0b01000101, 0b00000011] = .ok (.push 3, []) := by rfl
theorem test_decode_pop : decode [0b01000110, 0b00000001] = .ok (.pop 1, []) := by rfl
theorem test_decode_prn : decode [0b01000111, 0b00000100] = .ok (.prn 4, []) := by rfl
theorem test_decode_call : decode [0b01010000, 0b00000111] = .ok (.call 7, []) := by rfl
theorem test_decode_jmp : decode [0b01010100, 0b00000010] = .ok (.jmp 2, []) := by rfl
theorem test_decode_jeq : decode [0b01010101, 0b00000010] = .ok (.jeq 2, []) := by rfl
theorem test_decode_jne : decode [0b01010110, 0b00000010] = .ok (.jne 2, []) := by rfl
theorem test_decode_ldi : decode [0b10000010, 0b00000101, 0b11111111] = .ok (.ldi 5 255, []) := by rfl
theorem test_decode_mul : decode [0b10100010, 0b00000010, 0b00000001] = .ok (.mul 2 1, []) := by rfl
theorem test_decode_cmp : decode [0b10100111, 0b00000000, 0b00000110] = .ok (.cmp 0 6, []) := by rfl
theorem test_decode_add_of_ls8_is_illegal : decode [0xA0, 0, 1] = .error (.unknownOpcode 0xA0) := by rfl
theorem test_decode_zero_is_illegal : decode [0x00] = .error (.unknownOpcode 0) := by rfl
theorem test_decode_operand_missing : decode [0x82, 0] = .error (.missingOperand 2) := by rfl
theorem test_decodeTableWord_low_byte_first : decodeTableWord 24 0x080082 = some (.ldi 0 8) := by decide
theorem test_decodeTableWord_short_row : decodeTableWord 8 0xFF45 = some (.push 0) := by decide

/-! ## Small states -/

/-- A RUNNING CORE at `pc` with `bytes` there, R0 to R2 and SP as given, and the flag E as given. -/
def core (pc : PcWord) (bytes : List Byte) (r0 r1 r2 : Byte) (sp : Byte := 0xF4) (e : Bool := false) : State :=
  State.storeBytes pc.toNat bytes { State.reset with
    regs := #v[r0, r1, r2, 0, 0, 0, 0, sp], pc := pc, fl := ⟨false, false, e⟩, runState := .running }

/-- The next state of an outcome. -/
def after : Host.Outcome State Fault Refusal → Option State
  | .next s => some s
  | .fault _ => none
  | .refused _ => none

/-- The fault record and `pc` a step leaves, where it leaves the CORE FAULTED. -/
def faultAfter (s : State) : Option (FaultRecord × PcWord) :=
  match after (step s) with
  | some t => if t.runState = .faulted then t.fault.map (fun r => (r, t.pc)) else none
  | none => none

/-! ## 95_test_vectors.md section 2.1: the ALU -/

/-- R0 after an ALU operation on R0 and R1. -/
def aluR0 (kind : AluKind) (x y : Byte) : Option Byte :=
  match alu kind 0 1 (core 0 [] x y 0) with
  | .ok t => some t.regs[0]
  | .error _ => none

theorem test_alu_add : aluR0 .add 200 100 = some 44 := by decide
theorem test_alu_sub : aluR0 .sub 3 5 = some 254 := by decide
theorem test_alu_sub_zero : aluR0 .sub 0 255 = some 1 := by decide
theorem test_alu_div : aluR0 .div 7 2 = some 3 := by decide
theorem test_alu_div_by_zero : aluR0 .div 9 0 = none := by decide

/-! ## Section 2.2 and 2.3: MUL and CMP -/

theorem test_mul_wraps :
    (after (step (core 6 [0xA2, 0, 1] 15 18 0))).map (fun t => (t.regs[0], t.pc)) = some (14, 9) := by decide
theorem test_mul_squares_and_keeps_flags :
    (after (step (core 0 [0xA2, 2, 2] 0 0 12 0xF4 true))).map (fun t => (t.regs[2], t.fl)) =
      some (144, ⟨false, false, true⟩) := by decide
theorem test_mul_second_index_bad :
    faultAfter (core 0 [0xA2, 1, 9] 0 0 0) = some (⟨.addressError, 0, .reg 9⟩, 0) := by decide
theorem test_mul_operand_outside :
    faultAfter (core 254 [0xA2, 0] 0 0 0) = some (⟨.addressError, 254, .mem 256⟩, 254) := by decide
theorem test_cmp_unsigned_greater :
    (after (step (core 0 [0xA7, 0, 1] 0x80 0x7F 0))).map State.fl = some ⟨false, true, false⟩ := by decide
theorem test_cmp_clears_equal :
    (after (step (core 0 [0xA7, 0, 1] 4 5 0 0xF4 true))).map State.fl = some ⟨true, false, false⟩ := by decide

/-! ## Section 2.4: LDI and PRN -/

theorem test_ldi_moves_sp :
    (after (step (core 253 [0x82, 7, 0x40] 0 0 0))).map (fun t => (t.regs[7], t.pc)) = some (0x40, 256) := by decide
theorem test_ldi_index_bad : faultAfter (core 0 [0x82, 8, 1] 0 0 0) = some (⟨.addressError, 0, .reg 8⟩, 0) := by decide
theorem test_prn_emits : (after (step (core 0 [0x47, 0] 255 0 0))).map (fun t => (t.out, t.pc)) = some ([255], 2) := by decide
theorem test_prn_operand_outside :
    faultAfter (core 255 [0x47] 0 0 0) = some (⟨.addressError, 255, .mem 256⟩, 255) := by decide

/-! ## Section 2.5: PUSH and POP -/

theorem test_push_wraps :
    (after (step (core 10 [0x45, 1] 0 7 0 0x00))).map (fun t => (t.regs[7], t.mem.read 255)) = some (0xFF, 7) := by decide
theorem test_push_sp_stores_decremented :
    (after (step (core 0 [0x45, 7] 0 0 0))).map (fun t => (t.regs[7], t.mem.read 0xF3)) = some (0xF3, 0xF3) := by decide
theorem test_pop_wraps :
    (after (step { core 0 [0x46, 2] 0 0 0 0xFF with mem := [(0, 0x46), (1, 2), (255, 9)] })).map
      (fun t => (t.regs[2], t.regs[7])) = some (9, 0) := by decide
theorem test_pop_sp_is_value_plus_one :
    (after (step { core 0 [] 0 0 0 0xF3 with mem := [(0, 0x46), (1, 7), (0xF3, 0x20)] })).map
      (fun t => t.regs[7]) = some 0x21 := by decide

/-! ## Section 2.6: JMP, JEQ and JNE -/

theorem test_jmp : (after (step (core 0 [0x54, 2] 0 0 0x10))).map State.pc = some 0x10 := by decide
theorem test_jeq_taken : (after (step (core 12 [0x55, 2] 0 0 16 0xF4 true))).map State.pc = some 16 := by decide
theorem test_jeq_passed : (after (step (core 254 [0x55, 2] 0 0 16))).map State.pc = some 256 := by decide
theorem test_jne_taken : (after (step (core 20 [0x56, 2] 0 0 12))).map State.pc = some 12 := by decide
theorem test_jne_passed : (after (step (core 20 [0x56, 2] 0 0 12 0xF4 true))).map State.pc = some 22 := by decide
theorem test_jeq_checks_index_when_not_taken :
    faultAfter (core 0 [0x55, 9] 0 0 0) = some (⟨.addressError, 0, .reg 9⟩, 0) := by decide

/-! ## Section 2.7: CALL, RET, HLT and the loop -/

theorem test_call :
    (after (step (core 6 [0x50, 1] 0 11 0))).map (fun t => (t.regs[7], t.mem.read 0xF3, t.pc)) = some (0xF3, 8, 11) := by
  decide
theorem test_call_sp_reads_after_push :
    (after (step (core 10 [0x50, 7] 0 0 0))).map (fun t => (t.pc, t.mem.read 0xF3)) = some (0xF3, 12) := by decide
theorem test_call_return_address_outside :
    faultAfter (core 254 [0x50, 0] 0 0 0) = some (⟨.addressError, 254, .mem 256⟩, 254) := by decide
theorem test_ret :
    (after (step { core 0 [] 0 0 0 0xFF with mem := [(0, 0x11), (255, 3)] })).map (fun t => (t.pc, t.regs[7])) =
      some (3, 0) := by decide
theorem test_hlt_at_255 :
    (after (step (core 255 [0x01] 0 0 0))).map (fun t => (t.runState, t.pc)) = some (.halted, 255) := by decide
theorem test_unknown_opcode :
    faultAfter (core 3 [0x00] 0 0 0) = some (⟨.unknownOpcodeError, 3, .op 0⟩, 3) := by decide
theorem test_fetch_outside : faultAfter (core 256 [] 0 0 0) = some (⟨.addressError, 256, .mem 256⟩, 256) := by decide

/-! ## Section 2.8 and the host's formats -/

theorem test_load_outside :
    (after (loadByte 256 0x01 State.reset)).map (fun t => (t.runState, t.fault)) =
      some (.faulted, some ⟨.addressError, 256, .mem 256⟩) := by decide
theorem test_run_with_no_load :
    (after (hostRun 2 State.reset)).map (fun t => t.fault) = some (some ⟨.unknownOpcodeError, 0, .op 0⟩) := by decide
/-- R88's table: the codes of kinds no step reaches too, and 0 for no fault. -/
theorem test_inspect_fault_codes :
    [ErrorKind.loadError, .addressError, .unknownOpcodeError, .mathError, .unsupportedOperationError].map
      (fun k => (inspect (State.reset.raiseAt 0 ⟨k, .none⟩)).fault.code) = [1, 2, 3, 4, 5] ∧
    (inspect State.reset).fault.code = 0 := by decide
theorem test_inspect_flags : (inspect { State.reset with fl := ⟨true, false, true⟩ }).flByte = 0b00000101 := by decide
theorem test_render : renderOutput Config.defaultLineTerminator [72, 0] = ['7', '2', '\n', '0', '\n'] := by rfl
theorem test_image_line :
    parseImageLine ['1', '0', '0', '0', '0', '0', '1', '0', ' ', '#', 'x'] = .ok (some 0x82) := by rfl
theorem test_assembly : readInstr ['L', 'D', 'I', ' ', 'S', 'P', ',', '0', 'x', '4', '0'] = some (.ldi 7 0x40) := by rfl

/-- The first step after reset, with an instruction placed, runs it. -/
theorem test_placed_after_reset :
    (after (step (State.reset.withFetchWord 24 0x080082))).map (fun t => (t.regs[0], t.pc)) = some (8, 3) := by decide

/-! ## Witnesses: states and operands that meet the hypotheses of the statements -/

/-- `op` at the last address where nothing, one byte or two bytes follow it in memory. -/
def opcodeAt (pc : PcWord) (op : Byte) : State :=
  { State.reset with mem := Memory.write [] pc.toNat op, pc := pc, runState := .running }

/-- MUL, CMP, LDI: the last `pc` where both operand bytes lie in memory. -/
theorem witness_opcode_at_253 (op : Byte) :
    (opcodeAt 253 op).AtOpcode op ∧ (opcodeAt 253 op).pc.toNat + 2 ≤ 255 :=
  ⟨⟨rfl, by simp [opcodeAt], Memory.read_write_same _ _ _⟩, by simp [opcodeAt]⟩

/-- The second operand byte lies outside memory; for the two-byte instructions, the operand byte is the last cell. -/
theorem witness_opcode_at_254 (op : Byte) :
    (opcodeAt 254 op).AtOpcode op ∧ (opcodeAt 254 op).pc.toNat + 1 ≤ 255 ∧ 255 < (opcodeAt 254 op).pc.toNat + 2 :=
  ⟨⟨rfl, by simp [opcodeAt], Memory.read_write_same _ _ _⟩, by simp [opcodeAt], by simp [opcodeAt]⟩

/-- The first operand byte lies outside memory; HLT and RET are legal here. -/
theorem witness_opcode_at_255 (op : Byte) :
    (opcodeAt 255 op).AtOpcode op ∧ 255 < (opcodeAt 255 op).pc.toNat + 1 :=
  ⟨⟨rfl, by simp [opcodeAt], Memory.read_write_same _ _ _⟩, by simp [opcodeAt]⟩

theorem witness_DecodeInvertsEncode : decode [0x82, 0, 8, 1] = .ok (.ldi 0 8, [1]) ∧
    ([0x82, 0, 8, 1] : List Byte) = encode (.ldi 0 8) ++ [1] := ⟨rfl, rfl⟩

theorem witness_UnlistedOpcodesAreFatal : (opcodeAt 255 0xA0).AtOpcode 0xA0 ∧
    (0xA0 : Byte) ∉ ([0x01, 0x11, 0x45, 0x46, 0x47, 0x50, 0x54, 0x55, 0x56, 0x82, 0xA2, 0xA7] : List Byte) :=
  ⟨(witness_opcode_at_255 0xA0).1, by decide⟩

theorem witness_FetchErrorsComeInOrder_opcode_fetch :
    (core 256 [] 0 0 0).runState = .running ∧ 255 < (core 256 [] 0 0 0).pc.toNat := by decide

theorem witness_FetchErrorsComeInOrder_unlisted :
    (core 255 [] 0 0 0).runState = .running ∧ (core 255 [] 0 0 0).pc.toNat ≤ 255 ∧
      ∀ row ∈ opcodeTable, row.byte ≠ (core 255 [] 0 0 0).mem.read (core 255 [] 0 0 0).pc.toNat := by decide

theorem witness_FetchErrorsComeInOrder_first_operand :
    let row : OpcodeRow := ⟨0x45, .push, .f1r⟩
    let s := core 255 [0x45] 0 0 0
    row ∈ opcodeTable ∧ s.pc.toNat ≤ 255 ∧ row.byte = s.mem.read s.pc.toNat ∧ 2 ≤ row.format.length ∧
      255 < s.pc.toNat + 1 := by decide

theorem witness_FetchErrorsComeInOrder_second_operand :
    let row : OpcodeRow := ⟨0x82, .ldi, .f2ri⟩
    let s := core 254 [0x82, 0] 0 0 0
    row ∈ opcodeTable ∧ s.pc.toNat ≤ 255 ∧ row.byte = s.mem.read s.pc.toNat ∧ 3 ≤ row.format.length ∧
      s.pc.toNat + 1 ≤ 255 ∧ 255 < s.pc.toNat + 2 := by decide

theorem witness_FetchErrorsComeInOrder_complete :
    let row : OpcodeRow := ⟨0x82, .ldi, .f2ri⟩
    let s := core 253 [0x82, 0, 5] 0 0 0
    row ∈ opcodeTable ∧ row.byte = s.mem.read s.pc.toNat ∧ s.pc.toNat + row.format.length ≤ 256 := by decide

theorem witness_StepRunsTheDecodedInstruction :
    let s := core 253 [0x82, 0, 5] 0 0 0
    let i : Instr := .ldi 0 5
    s.runState = .running ∧ s.pc.toNat + i.length ≤ 256 ∧
      (List.range i.length).map (fun k => s.mem.read (s.pc.toNat + k)) = encode i := by decide

/-- From every `pc`, the last ones included, there is a word that decodes. -/
theorem witness_PlacedInstructionRunsNext : decodeTableWord 16 0x0045 = some (.push 0) := by decide

/-- The boundary of the register checks: 8 is above 7, and R7's byte is not. -/
theorem witness_register_bounds : 7 < (8 : Byte).toNat ∧ ¬ 7 < (regByte 7).toNat := by decide

theorem witness_PopFollowsItsRule : (6 : Reg) ≠ 7 := by decide

theorem witness_JeqJneFollowTheirRules : (core 0 [] 0 0 0 0xF4 true).fl.e = true ∧ (core 0 [] 0 0 0).fl.e = false := by
  decide

theorem witness_CallFollowsItsRule : ((core 253 [] 0 0 0).pc + 2).toNat ≤ 255 ∧ 255 < ((core 254 [] 0 0 0).pc + 2).toNat := by
  decide

theorem witness_AluDivisionAndErrors : (core 0 [] 7 0 0).regs[(1 : Reg)] = 0 ∧ (core 0 [] 7 1 0).regs[(1 : Reg)] ≠ 0 := by
  decide

theorem witness_OnlyCmpWritesFlagsAndNoneReadsLG :
    let s := core 0 [0xA7, 0, 1] 5 5 0
    ∃ t, step s = .next t ∧ t.fl ≠ s.fl := ⟨_, rfl, by decide⟩

theorem witness_OnlyCmpWritesFlagsAndNoneReadsLG_other :
    (∃ t, exec (.ldi 0 5) (core 0 [] 0 0 0) = .next t) ∧ ∀ a b : Byte, Instr.ldi 0 5 ≠ .cmp a b :=
  ⟨⟨_, rfl⟩, fun _ _ => by simp⟩

theorem witness_RetReturnsBehindItsCall : ((core 253 [] 0 0 0).pc + 2).toNat ≤ 255 ∧
    ∃ t t' : State, exec (.call (regByte 0)) (core 253 [] 0 0 0) = .next t ∧ t'.regs[7] = t.regs[7] ∧
      t'.mem.read t.regs[7].toNat = t.mem.read t.regs[7].toNat := ⟨by decide, _, _, rfl, rfl, rfl⟩

theorem witness_StoresGoOnlyThroughTheStackPointer :
    let s := core 0 [0x45, 0] 0xAA 0 0
    ∃ t, step s = .next t ∧ t.mem.read 0xF3 ≠ s.mem.read 0xF3 := ⟨_, rfl, by decide⟩

theorem witness_PushedByteIsFetched :
    let s := core 0xF1 [0x45, 0] 0x01 0x00 0
    s.runState = .running ∧ (0 : Reg) ≠ 7 ∧ (1 : Reg) ≠ 7 ∧ (s.pc + 2).toNat = (s.regs[7] - 1).toNat ∧
      s.regs[(0 : Reg)] = 0x01 ∧ Opcode.ofByte s.regs[(1 : Reg)] = none := by decide

theorem witness_CanonicalMemoriesAreDeterminedByReads :
    let m : Memory := [(0, 1), (255, 2)]
    let n : Memory := Memory.write (Memory.write [] 255 2) 0 1
    m.wf = true ∧ n.wf = true ∧ m = n := by decide

theorem witness_OnlyListedRegistersChange :
    ∃ t, exec (.ldi 0 5) (core 0 [] 0 0 0) = .next t ∧ t.regs[(0 : Reg)] ≠ (core 0 [] 0 0 0).regs[(0 : Reg)] :=
  ⟨_, rfl, by decide⟩

theorem witness_SequentialAdvanceIsTheLength : (Instr.push 7).wellFormed = true ∧ (Instr.mul 7 7).wellFormed = true := by
  decide

theorem witness_RegisterOperandsDecideTheError :
    (Instr.call 7).wellFormed = true ∧ ((core 253 [] 0 0 0).pc + 2).toNat ≤ 255 ∧ (Instr.call 8).wellFormed = false := by
  decide

theorem witness_FatalErrorsArePrecise_and_OnlyTwoErrorKindsAreReached :
    ∃ t r, step (core 256 [] 0 0 0) = .next t ∧ t.runState = .faulted ∧ t.fault = some r := ⟨_, _, rfl, rfl, rfl⟩

theorem witness_NoStepOutsideRunning : State.reset.runState = .load ∧
    (State.reset.setRunState .halted).runState = .halted ∧ (State.reset.setRunState .faulted).runState = .faulted := by
  decide

theorem witness_RunningStepsComplete : (core 256 [] 0 0 0).runState = .running := by decide

theorem witness_EndedRunsStayEnded : (core 0 [0x01] 0 0 0).runState = .running ∧
    (runWhileRunning 1 (core 0 [0x01] 0 0 0)).runState ≠ .running := by decide

theorem witness_FaultRecordIsWrittenOnce :
    (State.reset.raiseAt 0 (unknownOpcode 0)).Inv ∧ (State.reset.raiseAt 0 (unknownOpcode 0)).fault.isSome = true :=
  ⟨⟨by decide, by decide, by decide, by decide, by intro r h; cases h; decide⟩, by decide⟩

theorem witness_OutputGrowsOnlyByPrn_and_OutputIsNeverRead :
    ∃ t, step (core 0 [0x47, 0] 72 0 0) = .next t ∧ t.out = [72] := ⟨_, rfl, by decide⟩

theorem witness_LoadByteWritesOneCell : State.reset.runState = .load ∧ (255 : PcWord).toNat ≤ 255 ∧
    255 < (256 : PcWord).toNat ∧ (core 0 [] 0 0 0).runState ≠ .load := by decide

theorem witness_BootLoadsTheImageFromZero : (List.replicate 256 (0x01 : Byte)).length ≤ 256 ∧
    256 < (List.replicate 257 (0x01 : Byte)).length :=
  ⟨Nat.le_of_eq List.length_replicate, by rw [List.length_replicate]; decide⟩

theorem witness_InspectShowsEverything : inspect State.reset = inspect (hostReset (core 0 [] 1 2 3)) := by decide

theorem witness_ErrorCodesAreTheListedNumbers : State.reset.fault = none ∧ parseImage [] = .ok [] ∧
    parseImage ['2'] = .error .loadError ∧
    ∀ kind : ErrorKind, ∃ s : State, s.fault = some ⟨kind, 0, .none⟩ :=
  ⟨rfl, rfl, rfl, fun kind => ⟨State.reset.raiseAt 0 ⟨kind, .none⟩, rfl⟩⟩

/-- A step that ends in each of the three reports, and one that reports no fault. -/
theorem witness_StepsReportTheirErrorCodes :
    (∃ t, step (core 256 [] 0 0 0) = .next t ∧ (inspect t).fault = ⟨2, some 256, .mem 256⟩) ∧
    (∃ t, step (core 0 [0x47, 8] 0 0 0) = .next t ∧ (inspect t).fault = ⟨2, some 0, .reg 8⟩) ∧
    (∃ t, step (core 3 [0x00] 0 0 0) = .next t ∧ (inspect t).fault = ⟨3, some 3, .op 0⟩) ∧
    (∃ t, step (core 0 [0x47, 0] 0 0 0) = .next t ∧ t.runState ≠ .faulted) ∧
    (core 256 [] 0 0 0).Inv ∧ (core 0 [0x47, 8] 0 0 0).Inv ∧ (core 3 [0x00] 0 0 0).Inv ∧ (core 0 [0x47, 0] 0 0 0).Inv :=
  ⟨⟨_, rfl, by decide⟩, ⟨_, rfl, by decide⟩, ⟨_, rfl, by decide⟩, ⟨_, rfl, by decide⟩,
    ⟨by decide, by decide, by decide, by decide, by intro r h; cases h⟩,
    ⟨by decide, by decide, by decide, by decide, by intro r h; cases h⟩,
    ⟨by decide, by decide, by decide, by decide, by intro r h; cases h⟩,
    ⟨by decide, by decide, by decide, by decide, by intro r h; cases h⟩⟩

theorem witness_RenderedValuesAreDecimal : '0' ∈ decimalDigits 0 ∧ (decimalDigits 0).head? = some '0' := by decide

theorem witness_AssemblyReadsBack : (Instr.ldi 7 255).wellFormed = true := by decide

theorem witness_ImageLinesReadAsSpelled : '2' ∈ ['2'] ∧ '#' ∉ ['2'] ∧ '2' ≠ '0' ∧ '2' ≠ '1' ∧ isBlank '2' = false ∧
    parseImageLine ['2'] = .error .loadError := ⟨by decide, by decide, by decide, by decide, by decide, rfl⟩

/-- A state that meets the invariant, with a step and host operations from it. -/
theorem reset_inv : State.reset.Inv := ⟨by decide, by decide, by decide, by decide, by intro r h; cases h⟩

theorem witness_StepKeepsInv : (State.reset.setRunState .running).Inv ∧
    ∃ t, step (State.reset.setRunState .running) = .next t :=
  ⟨⟨by decide, by decide, by decide, by decide, by intro r h; cases h⟩, ⟨_, rfl⟩⟩

theorem witness_HostOperationsKeepInv : State.reset.Inv ∧ (∃ t, loadByte 255 1 State.reset = .next t) ∧
    ∃ t, startRun State.reset = .next t := ⟨reset_inv, ⟨_, rfl⟩, ⟨_, rfl⟩⟩

theorem witness_ReachableStatesAreSound : ∃ s, Reachable s ∧ s.runState = .faulted :=
  ⟨_, .loadByte 256 1 .reset rfl, rfl⟩

end Sys2Proof.Tests
end

/-! The flags of a comparison (R25, R66, R69). -/

namespace Sys2Proof.Machine

open Sys2Proof

/-- The two values are ordered in exactly one of the three ways, and each way sets one flag (R25). -/
theorem compareFlags_exactlyOne (x y : Byte) : (compareFlags x y).exactlyOne = true := by
  obtain hlt | heq | hgt := Nat.lt_trichotomy x.toNat y.toNat
  · simp [compareFlags, Flags.exactlyOne, hlt, hlt.ne, hlt.not_gt]
  · simp [compareFlags, Flags.exactlyOne, heq]
  · simp [compareFlags, Flags.exactlyOne, hgt, hgt.ne', hgt.not_gt]

/-- An ALU instruction whose operand bytes both name a register passes both index checks (R68, R69). -/
theorem aluInstruction_regByte (kind : AluKind) (a b : Reg) (s : State) :
    aluInstruction kind (regByte a) (regByte b) s = (alu kind a b s).map (State.advance 3) := by
  simp only [aluInstruction, regIdx_regByte]
  cases h : alu kind a b s <;> simp [h, bind, Except.bind, pure, Except.pure, Except.map]

/-- The whole effect of CMP on two registers (R69). -/
theorem exec_cmp_regByte (a b : Reg) (s : State) :
    exec (.cmp (regByte a) (regByte b)) s =
      .next ((s.setFlags (compareFlags (s.getReg a) (s.getReg b))).advance 3) :=
  congrArg (transaction s) (aluInstruction_regByte .cmp a b s)

/-- Settles O21: CMP's next state carries the flags of the comparison, of which exactly one is set. -/
theorem cmpSetsExactlyOneFlag : Obligations.CmpSetsExactlyOneFlag := by
  intro s a b
  exact ⟨_, exec_cmp_regByte a b s, compareFlags_exactlyOne _ _⟩

end Sys2Proof.Machine

/-! The bytes that are no opcode, and the step at one (R55, R56, R92). -/

namespace Sys2Proof

/-- The legal opcode bytes are the ones of the opcode map (R55, R56). -/
theorem Opcode.ofByte_eq_none_iff_notMem {b : Byte} :
    Opcode.ofByte b = none ↔ b ∉ opcodeTable.map OpcodeRow.byte := by
  simp only [Opcode.ofByte_eq_none, List.mem_map, not_exists, not_and]

/-- A list of distinct bytes leaves out the rest of the 256 byte values, in R56's way of counting them. -/
theorem length_filter_notMem_bytes {l : List Byte} (hl : l.Nodup) :
    ((List.range 256).filter (fun n => BitVec.ofNat 8 n ∉ l)).length = 256 - l.length := by
  have hperm : (l.map BitVec.toNat).Perm ((List.range 256).filter (fun n => BitVec.ofNat 8 n ∈ l)) := by
    refine (List.perm_ext_iff_of_nodup (hl.map fun _ _ => BitVec.eq_of_toNat_eq) (List.nodup_range.filter _)).2
      fun n => ?_
    simp only [List.mem_map, List.mem_filter, List.mem_range, decide_eq_true_eq]
    constructor
    · rintro ⟨b, hb, rfl⟩
      exact ⟨b.isLt, by simpa using hb⟩
    · rintro ⟨hn, hmem⟩
      exact ⟨_, hmem, Nat.mod_eq_of_lt hn⟩
  have hsplit := (List.range 256).length_eq_length_filter_add (fun n => BitVec.ofNat 8 n ∈ l)
  rw [← hperm.length_eq, List.length_map, List.length_range] at hsplit
  simp only [decide_not]
  omega

/-- The decoder names a front byte unknown exactly when it selects no operation, whatever follows it (R56). -/
theorem decode_eq_unknownOpcode_iff {b : Byte} {rest : List Byte} :
    decode (b :: rest) = .error (.unknownOpcode b) ↔ Opcode.ofByte b = none := by
  rw [decode_cons]
  cases hop : Opcode.ofByte b with
  | none => simp
  | some op =>
    have hne : decodeOperands op rest ≠ .error (.unknownOpcode b) := fun h => by
      obtain ⟨_, he⟩ | ⟨_, _, he⟩ := decodeOperands_error h <;> cases he
    simp [hne]

end Sys2Proof

namespace Sys2Proof.Machine

open Sys2Proof

variable {s : State} {b : Byte}

/-- The opcode is the first byte fetched (R70). -/
theorem fetchWindow_of_atOpcode (h : s.AtOpcode b) : s.fetchWindow = b :: s.bytesFrom (s.pc + 1) 2 := by
  obtain ⟨-, hpc, hb⟩ := h
  rw [State.fetchWindow, State.bytesFrom_of_le 2 hpc, hb]

/-- Fetching at a byte that selects no operation raises UnknownOpcodeError, before any operand is looked at (R92). -/
theorem fetchInstr_of_unlisted (h : s.AtOpcode b) (hop : Opcode.ofByte b = none) :
    s.fetchInstr = .error (unknownOpcode b) := by
  simp [State.fetchInstr, fetchWindow_of_atOpcode h, decode_eq_unknownOpcode_iff.2 hop, State.fetchError]

/-- A step at a byte that selects no operation ends the run with that byte as its information (R56). -/
theorem step_of_unlisted (h : s.AtOpcode b) (hop : Opcode.ofByte b = none) :
    step s = .next (s.endedBy .unknownOpcodeError (.op b)) := by
  have ⟨hrun, _, _⟩ := h
  simp [step_of_running hrun, fetchInstr_of_unlisted h hop, State.raiseFatal_eq_endedBy, unknownOpcode]

/-- Settles O3: the statement's twelve bytes are the opcode map's and distinct, and the decoder and the step both turn
on `Opcode.ofByte`. -/
theorem unlistedOpcodesAreFatal : Obligations.UnlistedOpcodesAreFatal := by
  refine ⟨fun b rest => ?_, length_filter_notMem_bytes (by decide), fun s b hs hb => ?_⟩
  · exact decode_eq_unknownOpcode_iff.trans Opcode.ofByte_eq_none_iff_notMem
  · exact step_of_unlisted hs (Opcode.ofByte_eq_none_iff_notMem.2 hb)

end Sys2Proof.Machine

/-! The step at an opcode whose operands are fetched (R70, R92), and MUL's rule (R68). -/

namespace Sys2Proof.Machine

open Sys2Proof

variable {s : State} {b : Byte}

/-- A step executes the instruction that the bytes at `pc` decode to (R70). -/
theorem step_of_decode_ok {i : Instr} {rest : List Byte} (hrun : s.runState = .running)
    (hd : decode s.fetchWindow = .ok (i, rest)) : step s = exec i s := by
  simp [step_of_running hrun, fetchInstr_of_decode hd]

/-- A step at bytes that do not decode enters the error of fetching them (R70, R92). -/
theorem step_of_decode_error {d : DecodeError} (hrun : s.runState = .running)
    (hd : decode s.fetchWindow = .error d) : step s = .next (s.raiseFatal (s.fetchError d)) := by
  simp [step_of_running hrun, State.fetchInstr, hd]

/-- An opcode whose two operand bytes lie in memory executes with them. -/
theorem step_of_twoOperands_inside {mk : Byte → Byte → Instr} (hs : s.AtOpcode b)
    (hd : ∀ x y, decode [b, x, y] = .ok (mk x y, [])) (hpc : s.pc.toNat + 2 ≤ 255) :
    step s = exec (mk (s.mem.read (s.pc.toNat + 1)) (s.mem.read (s.pc.toNat + 2))) s := by
  obtain ⟨hrun, -, hb⟩ := hs
  apply step_of_decode_ok hrun
  rw [State.fetchWindow_of_pc_le (by omega), hb]
  exact hd _ _

/-- The fetch of a first operand outside memory ends the run (R36, R92). -/
theorem step_of_firstOperand_outside (hs : s.AtOpcode b) (hd : decode [b] = .error (.missingOperand 1))
    (hpc : 255 < s.pc.toNat + 1) : step s = .next (s.endedBy .addressError (.mem (s.pc + 1))) := by
  obtain ⟨hrun, hle, hb⟩ := hs
  have h255 : s.pc.toNat = 255 := by omega
  refine step_of_decode_error (d := .missingOperand 1) hrun ?_
  rw [State.fetchWindow_of_pc_255 h255, ← h255, hb]
  exact hd

/-- The fetch of a second operand outside memory, the first one inside, ends the run (R36, R92). -/
theorem step_of_secondOperand_outside (hs : s.AtOpcode b)
    (hd : ∀ x, decode [b, x] = .error (.missingOperand 2)) (hin : s.pc.toNat + 1 ≤ 255)
    (hout : 255 < s.pc.toNat + 2) : step s = .next (s.endedBy .addressError (.mem (s.pc + 2))) := by
  obtain ⟨hrun, -, hb⟩ := hs
  have h254 : s.pc.toNat = 254 := by omega
  refine step_of_decode_error (d := .missingOperand 2) hrun ?_
  rw [State.fetchWindow_of_pc_254 h254, ← h254, hb]
  exact hd _

/-- An ALU instruction checks its first index first, whatever the second is (R18, R68, R69). -/
theorem aluInstruction_firstIndex_gt (kind : AluKind) {x : Byte} (y : Byte) (s : State) (hx : 7 < x.toNat) :
    aluInstruction kind x y s = .error (addressReg x) := by
  rw [aluInstruction, regIdx_of_gt hx]
  rfl

/-- An ALU instruction checks its second index after the first (R18, R68, R69). -/
theorem aluInstruction_secondIndex_gt (kind : AluKind) (a : Reg) {y : Byte} (s : State) (hy : 7 < y.toNat) :
    aluInstruction kind (regByte a) y s = .error (addressReg y) := by
  rw [aluInstruction, regIdx_regByte, regIdx_of_gt hy]
  rfl

/-- The whole effect of MUL on two registers (R64, R68). -/
theorem exec_mul_regByte (a b : Reg) (s : State) :
    exec (.mul (regByte a) (regByte b)) s =
      .next ((s.setReg a (trunc8 ((s.getReg a).toNat * (s.getReg b).toNat))).advance 3) :=
  congrArg (transaction s) (aluInstruction_regByte .mul a b s)

/-- Truncation to 8 bits is reduction modulo 256 (R10). -/
theorem trunc8_eq_ofNat_mod (n : Nat) : trunc8 n = BitVec.ofNat 8 (n % 256) :=
  BitVec.eq_of_toNat_eq (by simp [trunc8])

/-- Settles O7: the fetch clauses are those of any opcode with two operand bytes, the index clauses those of any ALU
instruction, and the product is the ALU's. -/
theorem mulFollowsItsRule : Obligations.MulFollowsItsRule := by
  refine ⟨fun s hs => ?inside, fun s a b => ?product, fun s hs => ?firstOutside, fun s hs => ?secondOutside,
    fun s x y hx => ?firstIndex, fun s a y hy => ?secondIndex⟩
  case inside => exact step_of_twoOperands_inside hs fun _ _ => rfl
  case product =>
    rw [exec_mul_regByte, trunc8_eq_ofNat_mod]
    rfl
  case firstOutside => exact step_of_firstOperand_outside hs rfl
  case secondOutside => exact step_of_secondOperand_outside hs fun _ => rfl
  case firstIndex => exact congrArg (transaction s) (aluInstruction_firstIndex_gt .mul y s hx)
  case secondIndex => exact congrArg (transaction s) (aluInstruction_secondIndex_gt .mul a s hy)

end Sys2Proof.Machine

/-! RET's rule (R75), and its return behind a CALL (R74, R76). -/

namespace Sys2Proof.Machine

open Sys2Proof

variable {s : State} {b : Byte}

/-- An opcode with no operand byte executes wherever it lies in memory, at address 255 too (R52). -/
theorem step_of_noOperands {i : Instr} (hs : s.AtOpcode b) (hd : ∀ rest, decode (b :: rest) = .ok (i, rest)) :
    step s = exec i s := by
  have ⟨hrun, _, _⟩ := hs
  exact step_of_decode_ok hrun (by rw [fetchWindow_of_atOpcode hs, hd])

/-- The whole effect of RET (R75). -/
theorem exec_ret (s : State) : exec .ret s = .next { s with
    pc := zext9 (s.mem.read s.regs[7].toNat), regs := s.regs.set 7 (s.regs[7] + 1) } := rfl

/-- Settles O17: RET never raises, and its one byte is always fetched whole. -/
theorem retFollowsItsRule : Obligations.RetFollowsItsRule :=
  ⟨exec_ret, fun _ hs => step_of_noOperands hs fun _ => rfl⟩

/-- An instruction of one register operand passes its index check where the operand byte names a register (R18). -/
theorem oneReg_regByte (r : Reg) (f : Reg → Except FatalError State) :
    transaction s (regIdx (regByte r) >>= f) = transaction s (f r) := by
  rw [regIdx_regByte]
  rfl

/-- The whole effect of CALL on a register, where the return address fits memory (R74). -/
theorem exec_call_regByte (r : Reg) (h : (s.pc + 2).toNat ≤ 255) :
    exec (.call (regByte r)) s =
      .next ((s.pushByte ((s.pc + 2).setWidth 8)).jumpTo (s.readAfterDecrement r)) := by
  refine (oneReg_regByte r _).trans ?_
  rw [returnAddress, checkAddr_of_le h]
  rfl

/-- After a push SP is one less. -/
theorem State.pushByte_regs_sp (s : State) (v : Byte) : (s.pushByte v).regs[7] = s.regs[7] - 1 :=
  State.sp_setSp s s.pushAddr

/-- A push leaves every register but SP alone. -/
theorem State.pushByte_regs_other (s : State) (v : Byte) {q : Reg} (h : q ≠ 7) :
    (s.pushByte v).regs[q] = s.regs[q] :=
  (State.getReg_setReg s 7 q s.pushAddr).trans (if_neg h)

/-- The cell at SP holds the value just pushed. -/
theorem State.read_pushByte_sp (s : State) (v : Byte) :
    (s.pushByte v).mem.read (s.pushByte v).regs[7].toNat = v := by
  rw [State.pushByte_regs_sp]
  exact Memory.read_write_same _ _ v

/-- An address inside memory comes back whole from the byte it is pushed as (R22). -/
theorem zext9_setWidth_of_le {a : PcWord} (h : a.toNat ≤ 255) : zext9 (a.setWidth 8) = a := by
  apply BitVec.eq_of_toNat_eq
  simp only [zext9, BitVec.toNat_setWidth]
  omega

/-- Settles O24: the CALL's push leaves the return address in the cell at SP, where the RET reads it, and the RET's
increment of SP undoes the push's decrement. -/
theorem retReturnsBehindItsCall : Obligations.RetReturnsBehindItsCall := by
  intro s r hret
  refine ⟨_, exec_call_regByte r hret, rfl, fun q hq => ?others, fun t' hsp hcell => ?back⟩
  case others => rw [State.jumpTo_regs, State.pushByte_regs_other _ _ hq]
  case back =>
    rw [State.jumpTo_regs] at hsp hcell
    rw [State.jumpTo_mem, State.read_pushByte_sp, ← hsp] at hcell
    have hpc : zext9 (t'.mem.read t'.regs[7].toNat) = s.pc + 2 := by
      rw [hcell, zext9_setWidth_of_le hret]
    have hback : t'.regs[7] + (1 : Byte) = s.regs[7] := by
      rw [hsp, State.pushByte_regs_sp, BitVec.sub_add_cancel]
    rw [exec_ret, hpc, hback]

end Sys2Proof.Machine

/-! The instructions of one register operand: their fetch and their index check (R18, R51, R92), then LDI's rule (R77)
and PRN's (R78). -/

namespace Sys2Proof.Machine

open Sys2Proof

variable {s : State} {b : Byte}

/-- An opcode whose one operand byte lies in memory executes with it, up to the operand at address 255 (R51). -/
theorem step_of_oneOperand_inside {mk : Byte → Instr} (hs : s.AtOpcode b)
    (hd : ∀ x rest, decode (b :: x :: rest) = .ok (mk x, rest)) (hpc : s.pc.toNat + 1 ≤ 255) :
    step s = exec (mk (s.mem.read (s.pc.toNat + 1))) s := by
  have ⟨hrun, hle, _⟩ := hs
  have hnext := PcWord.toNat_add_one hle
  apply step_of_decode_ok hrun
  rw [fetchWindow_of_atOpcode hs, State.bytesFrom_of_le 1 (hnext.trans_le hpc), hnext]
  exact hd _ _

/-- An operand byte that names no register ends the run before anything is computed with it (R18). -/
theorem oneReg_of_gt {x : Byte} (hx : 7 < x.toNat) (f : Reg → Except FatalError State) :
    transaction s (regIdx x >>= f) = .next (s.endedBy .addressError (.reg x)) := by
  rw [regIdx_of_gt hx]
  rfl

/-- The whole effect of LDI on a register (R77). -/
theorem exec_ldi_regByte (r : Reg) (imm : Byte) (s : State) :
    exec (.ldi (regByte r) imm) s = .next ((s.setReg r imm).advance 3) :=
  oneReg_regByte r _

/-- The whole effect of PRN on a register (R78). -/
theorem exec_prn_regByte (r : Reg) (s : State) :
    exec (.prn (regByte r)) s = .next ((s.emit (s.getReg r)).advance 2) :=
  oneReg_regByte r _

/-- Settles O9: the fetch clauses are those of any opcode with two operand bytes, the index clause that of any first
register operand. -/
theorem ldiFollowsItsRule : Obligations.LdiFollowsItsRule := by
  refine ⟨fun s hs => ?inside, fun s r imm => ?effect, fun s hs => ?firstOutside, fun s hs => ?secondOutside,
    fun s x imm hx => ?index⟩
  case inside => exact step_of_twoOperands_inside hs fun _ _ => rfl
  case effect => exact exec_ldi_regByte r imm s
  case firstOutside => exact step_of_firstOperand_outside hs rfl
  case secondOutside => exact step_of_secondOperand_outside hs fun _ => rfl
  case index => exact oneReg_of_gt hx _

/-- Settles O10: the fetch clauses are those of any opcode with one operand byte, and the index check comes before the
value is emitted. -/
theorem prnFollowsItsRule : Obligations.PrnFollowsItsRule := by
  refine ⟨fun s hs => ?inside, fun s r => ?effect, fun s hs => ?outside, fun s x hx => ?index⟩
  case inside => exact step_of_oneOperand_inside hs fun _ _ => rfl
  case effect => exact exec_prn_regByte r s
  case outside => exact step_of_firstOperand_outside hs rfl
  case index => exact oneReg_of_gt hx _

end Sys2Proof.Machine

/-! JMP's rule (R83), with the fetch and the index check of one register operand. -/

namespace Sys2Proof.Machine

open Sys2Proof

/-- The whole effect of JMP on a register (R83). -/
theorem exec_jmp_regByte (r : Reg) (s : State) :
    exec (.jmp (regByte r)) s = .next (s.jumpTo (s.getReg r)) :=
  oneReg_regByte r _

/-- Settles O13: the fetch clauses are those of any opcode with one operand byte, and the index check comes before the
jump. -/
theorem jmpFollowsItsRule : Obligations.JmpFollowsItsRule := by
  refine ⟨fun s hs => ?inside, fun s r => ?effect, fun s hs => ?outside, fun s x hx => ?index⟩
  case inside => exact step_of_oneOperand_inside hs fun _ _ => rfl
  case effect => exact exec_jmp_regByte r s
  case outside => exact step_of_firstOperand_outside hs rfl
  case index => exact oneReg_of_gt hx _

end Sys2Proof.Machine

/-! Decoding and encoding are inverse (R51, R55, R57). -/

namespace Sys2Proof

/-- The byte of an operation in the opcode map (R55). -/
def Opcode.byte : Opcode → Byte
  | .hlt => 0x01
  | .ret => 0x11
  | .push => 0x45
  | .pop => 0x46
  | .prn => 0x47
  | .call => 0x50
  | .jmp => 0x54
  | .jeq => 0x55
  | .jne => 0x56
  | .ldi => 0x82
  | .mul => 0xA2
  | .cmp => 0xA7

/-- The format of an operation in the opcode map (R51). -/
def Opcode.format : Opcode → Format
  | .hlt | .ret => .f0
  | .ldi => .f2ri
  | .mul | .cmp => .f2rr
  | _ => .f1r

/-- Each row of the opcode map holds its operation's byte and format. -/
theorem opcodeTable_row {row : OpcodeRow} (h : row ∈ opcodeTable) :
    row.byte = row.op.byte ∧ row.format = row.op.format := by
  revert row
  decide

/-- An operation's byte selects it, and no other byte does (R55). -/
theorem Opcode.ofByte_eq_some_iff {b : Byte} {op : Opcode} : Opcode.ofByte b = some op ↔ b = op.byte := by
  constructor
  · intro h
    obtain ⟨row, hrow, rfl, rfl⟩ := Opcode.row_of_ofByte h
    exact (opcodeTable_row hrow).1
  · rintro rfl
    cases op <;> rfl

theorem oneOperand_eq_ok {mk : Byte → Instr} {bytes rest : List Byte} {i : Instr}
    (h : oneOperand mk bytes = .ok (i, rest)) : ∃ r, i = mk r ∧ bytes = r :: rest := by
  cases bytes with
  | nil => cases h
  | cons r bytes =>
    cases h
    exact ⟨r, rfl, rfl⟩

theorem twoOperands_eq_ok {mk : Byte → Byte → Instr} {bytes rest : List Byte} {i : Instr}
    (h : twoOperands mk bytes = .ok (i, rest)) : ∃ a b, i = mk a b ∧ bytes = a :: b :: rest := by
  match bytes with
  | [] | [_] => cases h
  | a :: b :: bytes =>
    cases h
    exact ⟨a, b, rfl, rfl⟩

/-- Operand bytes decode only to an instruction whose encoding they complete. -/
theorem encode_of_decodeOperands {op : Opcode} {bytes rest : List Byte} {i : Instr}
    (h : decodeOperands op bytes = .ok (i, rest)) : op.byte :: bytes = encode i ++ rest := by
  cases op with
  | hlt | ret =>
    cases h
    rfl
  | ldi | mul | cmp =>
    obtain ⟨a, b, rfl, rfl⟩ := twoOperands_eq_ok h
    rfl
  | _ =>
    obtain ⟨r, rfl, rfl⟩ := oneOperand_eq_ok h
    rfl

/-- Bytes that decode are the instruction's encoding and the bytes left over. -/
theorem encode_of_decode {bytes rest : List Byte} {i : Instr} (h : decode bytes = .ok (i, rest)) :
    bytes = encode i ++ rest := by
  cases bytes with
  | nil => cases h
  | cons b bytes =>
    rw [decode_cons] at h
    cases hop : Opcode.ofByte b with
    | none =>
      rw [hop] at h
      cases h
    | some op =>
      rw [hop] at h
      rw [Opcode.ofByte_eq_some_iff.1 hop]
      exact encode_of_decodeOperands h

/-- An encoding decodes to its instruction, whatever follows it. -/
theorem decode_encode_append (i : Instr) (rest : List Byte) : decode (encode i ++ rest) = .ok (i, rest) := by
  cases i <;> rfl

/-- Settles O1: each direction by cases on the operation, whose byte fixes which operand bytes follow. -/
theorem decodeInvertsEncode : Obligations.DecodeInvertsEncode := by
  intro bytes i rest
  constructor
  · exact encode_of_decode
  · rintro rfl
    exact decode_encode_append i rest

/-- Settles O2: each row's bytes are the encoding of its instruction. -/
theorem opcodeMapDecodes : Obligations.OpcodeMapDecodes := fun x y rest =>
  ⟨decode_encode_append .hlt rest, decode_encode_append .ret rest, decode_encode_append (.push x) rest,
    decode_encode_append (.pop x) rest, decode_encode_append (.prn x) rest, decode_encode_append (.call x) rest,
    decode_encode_append (.jmp x) rest, decode_encode_append (.jeq x) rest, decode_encode_append (.jne x) rest,
    decode_encode_append (.ldi x y) rest, decode_encode_append (.mul x y) rest,
    decode_encode_append (.cmp x y) rest⟩

/-- An instruction's length is its encoding's (R52). -/
theorem encode_length (i : Instr) : (encode i).length = i.length := by
  cases i <;> rfl

/-- The instruction of an operation with the operand bytes it takes, of the two given. -/
def Opcode.instr : Opcode → Byte → Byte → Instr
  | .hlt, _, _ => .hlt
  | .ret, _, _ => .ret
  | .push, x, _ => .push x
  | .pop, x, _ => .pop x
  | .prn, x, _ => .prn x
  | .call, x, _ => .call x
  | .jmp, x, _ => .jmp x
  | .jeq, x, _ => .jeq x
  | .jne, x, _ => .jne x
  | .ldi, x, y => .ldi x y
  | .mul, x, y => .mul x y
  | .cmp, x, y => .cmp x y

theorem Opcode.opcode_instr (op : Opcode) (x y : Byte) : (op.instr x y).opcode = op := by
  cases op <;> rfl

/-- The operation's byte and as many of the two operand bytes as its format has (R51, R54). -/
theorem Opcode.encode_instr (op : Opcode) (x y : Byte) :
    encode (op.instr x y) = [op.byte, x, y].take op.format.length := by
  cases op <;> rfl

theorem Opcode.length_instr (op : Opcode) (x y : Byte) : (op.instr x y).length = op.format.length := by
  cases op <;> rfl

theorem Format.length_le (f : Format) : f.length ≤ 3 := by
  cases f <;> decide

/-- An operation with an operand does not decode from its byte alone. -/
theorem Opcode.decode_missing_first {op : Opcode} (h : 2 ≤ op.format.length) :
    decode [op.byte] = .error (.missingOperand 1) := by
  cases op with
  | hlt | ret => exact absurd h (by decide)
  | _ => rfl

/-- An operation with two operands does not decode from one of them. -/
theorem Opcode.decode_missing_second {op : Opcode} (h : 3 ≤ op.format.length) (x : Byte) :
    decode [op.byte, x] = .error (.missingOperand 2) := by
  cases op with
  | ldi | mul | cmp => rfl
  | _ => exact absurd h (by decide)

end Sys2Proof

/-! What a step fetches and runs (R12, R70, R92), and the placing of an instruction (log entry 5). -/

namespace Sys2Proof.Machine

open Sys2Proof

variable {s : State} {i : Instr}

/-- The bytes fetched are those at the address and after it, as far as memory exists. -/
theorem State.bytesFrom_eq (s : State) (n : Nat) (a : PcWord) :
    s.bytesFrom a n = (List.range (min n (256 - a.toNat))).map (fun k => s.mem.read (a.toNat + k)) := by
  induction n generalizing a with
  | zero => simp [State.bytesFrom]
  | succ n ih =>
    by_cases h : a.toNat ≤ 255
    · have hcount : min (n + 1) (256 - a.toNat) = min n (256 - (a.toNat + 1)) + 1 := by omega
      rw [State.bytesFrom_of_le n h, ih, PcWord.toNat_add_one h, hcount, List.range_succ_eq_map]
      simp [Function.comp_def, Nat.add_assoc, Nat.add_comm 1]
    · rw [State.bytesFrom_of_gt n (Nat.lt_of_not_le h), Nat.sub_eq_zero_of_le (Nat.lt_of_not_le h)]
      simp

theorem State.fetchWindow_eq (s : State) :
    s.fetchWindow = (List.range (min 3 (256 - s.pc.toNat))).map (fun k => s.mem.read (s.pc.toNat + k)) :=
  s.bytesFrom_eq 3 s.pc

/-- The bytes of an instruction that lies in memory at `pc` are the front of what is fetched. -/
theorem decode_fetchWindow (hpc : s.pc.toNat + i.length ≤ 256)
    (hbytes : (List.range i.length).map (fun k => s.mem.read (s.pc.toNat + k)) = encode i) :
    ∃ rest, decode s.fetchWindow = .ok (i, rest) := by
  obtain ⟨-, hlen⟩ := i.length_bounds
  have hcount : min 3 (256 - s.pc.toNat) = i.length + (min 3 (256 - s.pc.toNat) - i.length) := by omega
  rw [State.fetchWindow_eq, hcount, List.range_add, List.map_append, hbytes]
  exact ⟨_, decode_encode_append i _⟩

/-- Settles O5: the decoder reads the encoding at the front of the bytes fetched. -/
theorem stepRunsTheDecodedInstruction : Obligations.StepRunsTheDecodedInstruction := by
  intro s i hrun hpc hbytes
  obtain ⟨rest, hd⟩ := decode_fetchWindow hpc hbytes
  exact step_of_decode_ok hrun hd

/-- How many bytes are fetched: three, or as many as there are up to address 255. -/
theorem State.fetchWindow_length (s : State) : s.fetchWindow.length = min 3 (256 - s.pc.toNat) := by
  rw [State.fetchWindow_eq, List.length_map, List.length_range]

/-- An instruction fetched is at the front of the bytes fetched. -/
theorem fetchWindow_of_fetchInstr (h : s.fetchInstr = .ok i) : ∃ rest, s.fetchWindow = encode i ++ rest := by
  unfold State.fetchInstr at h
  split at h
  · next hd =>
    cases h
    exact ⟨_, encode_of_decode hd⟩
  · cases h

/-- An instruction fetched lies in memory whole (R52, R92). -/
theorem pc_add_length_le_of_fetchInstr (h : s.fetchInstr = .ok i) : s.pc.toNat + i.length ≤ 256 := by
  obtain ⟨rest, hwindow⟩ := fetchWindow_of_fetchInstr h
  have hlen := congrArg List.length hwindow
  obtain ⟨hpos, -⟩ := i.length_bounds
  rw [State.fetchWindow_length, List.length_append, encode_length] at hlen
  omega

/-- Settles O4: below 256 the first byte fetched is the opcode; a listed one owns as many of the bytes after it as its
row's format says. -/
theorem fetchErrorsComeInOrder : Obligations.FetchErrorsComeInOrder := by
  intro s hrun
  refine ⟨fun hpc => ?outside, fun hpc hne => ?unlisted, fun row hrow hpc hb => ?listed⟩
  case outside =>
    exact step_of_decode_error (d := .noOpcode) hrun (by rw [State.fetchWindow_of_pc_ge hpc]; rfl)
  case unlisted =>
    exact step_of_unlisted ⟨hrun, hpc, rfl⟩ (Opcode.ofByte_eq_none.2 hne)
  case listed =>
    obtain ⟨hbyte, hformat⟩ := opcodeTable_row hrow
    have hs : s.AtOpcode row.op.byte := ⟨hrun, hpc, by rw [← hb, hbyte]⟩
    rw [hformat]
    refine ⟨fun hn hout => ?first, fun hn hin hout => ?second, fun hin => ?inside⟩
    case first => exact step_of_firstOperand_outside hs (Opcode.decode_missing_first hn) hout
    case second => exact step_of_secondOperand_outside hs (Opcode.decode_missing_second hn) hin hout
    case inside =>
      have hbytes : encode (row.op.instr (s.mem.read (s.pc.toNat + 1)) (s.mem.read (s.pc.toNat + 2))) =
          (List.range row.op.format.length).map (fun k => s.mem.read (s.pc.toNat + k)) := by
        have hthree : [row.op.byte, s.mem.read (s.pc.toNat + 1), s.mem.read (s.pc.toNat + 2)] =
            (List.range 3).map (fun k => s.mem.read (s.pc.toNat + k)) := by
          rw [← hbyte, hb]
          rfl
        rw [Opcode.encode_instr, hthree, ← List.map_take, List.take_range,
          Nat.min_eq_left (Format.length_le _)]
      refine ⟨_, Opcode.opcode_instr _ _ _, hbytes, ?_⟩
      refine stepRunsTheDecodedInstruction s _ hrun ?_ ?_ <;> rw [Opcode.length_instr]
      · exact hin
      · exact hbytes.symm

/-- Storing bytes leaves the cells before the first one alone. -/
theorem State.read_storeBytes_below {a addr : Nat} (bytes : List Byte) (s : State) (h : a < addr) :
    (State.storeBytes addr bytes s).mem.read a = s.mem.read a := by
  induction bytes generalizing addr s with
  | nil => rfl
  | cons b rest ih =>
    rw [State.storeBytes, ih _ (Nat.lt_succ_of_lt h)]
    split
    · exact Memory.read_write_other _ _ (Nat.ne_of_lt h)
    · rfl

/-- Bytes stored from `addr` on stand there, as far as memory exists. -/
theorem State.read_storeBytes (addr : Nat) (bytes : List Byte) (s : State) {k : Nat} (hk : k < bytes.length)
    (hmem : addr + k < Config.memSize) : (State.storeBytes addr bytes s).mem.read (addr + k) = bytes[k] := by
  induction bytes generalizing addr s k with
  | nil => exact absurd hk (Nat.not_lt_zero k)
  | cons b rest ih =>
    rw [State.storeBytes]
    cases k with
    | zero =>
      rw [Nat.add_zero addr] at hmem ⊢
      rw [State.read_storeBytes_below _ _ (Nat.lt_add_one addr), if_pos hmem]
      exact Memory.read_write_same _ _ _
    | succ k =>
      have hnext : addr + (k + 1) = addr + 1 + k := by omega
      rw [hnext] at hmem ⊢
      exact ih _ _ (Nat.lt_of_succ_lt_succ hk) hmem

/-- Storing bytes touches memory only. -/
theorem State.storeBytes_eq (addr : Nat) (bytes : List Byte) (s : State) :
    State.storeBytes addr bytes s = { s with mem := (State.storeBytes addr bytes s).mem } := by
  induction bytes generalizing addr s with
  | nil => rfl
  | cons b rest ih =>
    rw [State.storeBytes, ih]
    split <;> rfl

/-- The place chosen for an instruction of at most 256 bytes has room for it. -/
theorem State.placePc_add_le (s : State) {n : Nat} (hn : n ≤ 256) : (s.placePc n).toNat + n ≤ 256 := by
  unfold State.placePc
  split
  · assumption
  · simpa [Config.pcReset] using hn

/-- Placing bytes touches only memory, `pc` and the run state. -/
theorem State.placeInstruction_eq (bytes : List Byte) (s : State) :
    s.placeInstruction bytes = { s with
      mem := (s.placeInstruction bytes).mem, pc := s.placePc (frontLength bytes), runState := .running } :=
  State.storeBytes_eq _ bytes _

theorem State.placeInstruction_pc (bytes : List Byte) (s : State) :
    (s.placeInstruction bytes).pc = s.placePc (frontLength bytes) := by
  rw [State.placeInstruction_eq]

/-- A step after the placing of an encoding, whatever bytes follow it, runs its instruction. -/
theorem step_placeInstruction (i : Instr) (rest : List Byte) (s : State) :
    step (s.placeInstruction (encode i ++ rest)) = exec i (s.placeInstruction (encode i ++ rest)) := by
  have hfront : frontLength (encode i ++ rest) = i.length := by
    rw [frontLength, decode_encode_append]
  have hpc : (s.placeInstruction (encode i ++ rest)).pc = s.placePc i.length := by
    rw [State.placeInstruction_pc, hfront]
  have hroom : (s.placePc i.length).toNat + i.length ≤ 256 :=
    s.placePc_add_le (Nat.le_trans i.length_bounds.2 (by decide))
  refine stepRunsTheDecodedInstruction _ i (by rw [State.placeInstruction_eq]) (by rw [hpc]; exact hroom) ?_
  apply List.ext_getElem (by simp [encode_length])
  intro k hk hk'
  have hmem : (s.placePc i.length).toNat + k < Config.memSize := by
    rw [encode_length] at hk'
    exact Nat.lt_of_lt_of_le (Nat.add_lt_add_left hk' _) hroom
  have hall : k < (encode i ++ rest).length := by
    rw [List.length_append]
    omega
  rw [List.getElem_map, List.getElem_range, hpc, State.placeInstruction, hfront,
    State.read_storeBytes _ _ _ hall hmem, List.getElem_append_left hk']

/-- A word that decodes has the encoding of its instruction at the front of its bytes. -/
theorem tableBytes_of_decodeTableWord {nbits w : Nat} (h : decodeTableWord nbits w = some i) :
    ∃ rest, tableBytes nbits w = encode i ++ rest := by
  unfold decodeTableWord at h
  split at h
  · next hd =>
    cases h
    exact ⟨_, encode_of_decode hd⟩
  · cases h

/-- Settles O6: the bytes of a word that decodes are stored where the placed `pc` has room for its instruction. -/
theorem placedInstructionRunsNext : Obligations.PlacedInstructionRunsNext := by
  intro s nbits w i hw
  obtain ⟨rest, hbytes⟩ := tableBytes_of_decodeTableWord hw
  constructor
  · rw [State.withFetchWord, hbytes]
    exact step_placeInstruction i rest s
  · rw [State.withFetchWord, State.placeInstruction_pc]
    exact s.placeInstruction_eq _

end Sys2Proof.Machine

/-! The rules of CMP (R69), PUSH and POP (R79, R80), JEQ and JNE (R84, R85), CALL (R74) and HLT (R73). -/

namespace Sys2Proof.Machine

open Sys2Proof

/-- E says that the two bytes are the same, not only their values (R66). -/
theorem compareFlags_eq (x y : Byte) : compareFlags x y =
    { l := decide (x.toNat < y.toNat), g := decide (y.toNat < x.toNat), e := decide (x = y) } := by
  simp only [compareFlags, BitVec.toNat_inj]

/-- Settles O8: the clauses of the fetch and of the index checks are MUL's, and the flags are the ALU's. -/
theorem cmpFollowsItsRule : Obligations.CmpFollowsItsRule := by
  refine ⟨fun s hs => ?inside, fun s a b => ?flags, fun s hs => ?firstOutside, fun s hs => ?secondOutside,
    fun s x y hx => ?firstIndex, fun s a y hy => ?secondIndex⟩
  case inside => exact step_of_twoOperands_inside hs fun _ _ => rfl
  case flags =>
    rw [exec_cmp_regByte, compareFlags_eq]
    rfl
  case firstOutside => exact step_of_firstOperand_outside hs rfl
  case secondOutside => exact step_of_secondOperand_outside hs fun _ => rfl
  case firstIndex => exact congrArg (transaction s) (aluInstruction_firstIndex_gt .cmp y s hx)
  case secondIndex => exact congrArg (transaction s) (aluInstruction_secondIndex_gt .cmp a s hy)

/-- The whole effect of PUSH on a register (R79). -/
theorem exec_push_regByte (r : Reg) (s : State) :
    exec (.push (regByte r)) s = .next ((s.pushByte (s.readAfterDecrement r)).advance 2) :=
  oneReg_regByte r _

/-- The whole effect of POP on a register (R80). -/
theorem exec_pop_regByte (r : Reg) (s : State) :
    exec (.pop (regByte r)) s = .next ((s.popInto r s.popValue).advance 2) :=
  oneReg_regByte r _

/-- Settles O11: the push writes one cell, the one at the decremented SP. -/
theorem pushFollowsItsRule : Obligations.PushFollowsItsRule := by
  refine ⟨fun s hs => ?inside, fun s r => ?effect, fun s hs => ?outside, fun s x hx => ?index⟩
  case inside => exact step_of_oneOperand_inside hs fun _ _ => rfl
  case effect =>
    exact ⟨_, exec_push_regByte r s, Memory.read_write_same _ _ _, fun _ ha => Memory.read_write_other _ _ ha⟩
  case outside => exact step_of_firstOperand_outside hs rfl
  case index => exact oneReg_of_gt hx _

/-- Settles O12: the register is written first, then SP; for R7 the two writes are one. -/
theorem popFollowsItsRule : Obligations.PopFollowsItsRule := by
  refine ⟨fun s hs => ?inside, fun s r hr => ?other, fun s => ?sp, fun s hs => ?outside, fun s x hx => ?index⟩
  case inside => exact step_of_oneOperand_inside hs fun _ _ => rfl
  case other =>
    rw [exec_pop_regByte, State.popInto, Config.spIndex, if_neg hr]
    rfl
  case sp => exact exec_pop_regByte 7 s
  case outside => exact step_of_firstOperand_outside hs rfl
  case index => exact oneReg_of_gt hx _

/-- The whole effect of JEQ on a register (R84). -/
theorem exec_jeq_regByte (r : Reg) (s : State) :
    exec (.jeq (regByte r)) s = .next (if s.fl.e then s.jumpTo (s.getReg r) else s.advance 2) :=
  oneReg_regByte r _

/-- The whole effect of JNE on a register (R85). -/
theorem exec_jne_regByte (r : Reg) (s : State) :
    exec (.jne (regByte r)) s = .next (if !s.fl.e then s.jumpTo (s.getReg r) else s.advance 2) :=
  oneReg_regByte r _

/-- Settles O14: the index check comes before the flag is looked at. -/
theorem jeqFollowsItsRule : Obligations.JeqFollowsItsRule := by
  refine ⟨fun s hs => ?inside, fun s r he => ?taken, fun s r he => ?passed, fun s hs => ?outside, fun s x hx => ?index⟩
  case inside => exact step_of_oneOperand_inside hs fun _ _ => rfl
  case taken =>
    rw [exec_jeq_regByte, he]
    rfl
  case passed =>
    rw [exec_jeq_regByte, he]
    rfl
  case outside => exact step_of_firstOperand_outside hs rfl
  case index => exact oneReg_of_gt hx _

/-- Settles O15: JEQ's argument with the flag's other value. -/
theorem jneFollowsItsRule : Obligations.JneFollowsItsRule := by
  refine ⟨fun s hs => ?inside, fun s r he => ?taken, fun s r he => ?passed, fun s hs => ?outside, fun s x hx => ?index⟩
  case inside => exact step_of_oneOperand_inside hs fun _ _ => rfl
  case taken =>
    rw [exec_jne_regByte, he]
    rfl
  case passed =>
    rw [exec_jne_regByte, he]
    rfl
  case outside => exact step_of_firstOperand_outside hs rfl
  case index => exact oneReg_of_gt hx _

/-- A CALL whose return address does not fit memory ends the run, its register index being good (R74, D11). -/
theorem exec_call_returnAddress_outside {s : State} (r : Reg) (h : 255 < (s.pc + 2).toNat) :
    exec (.call (regByte r)) s = .next (s.endedBy .addressError (.mem (s.pc + 2))) := by
  refine (oneReg_regByte r _).trans ?_
  rw [returnAddress, checkAddr_of_gt h]
  rfl

/-- Settles O16: the return address fits a byte exactly when it lies in memory, and it is pushed as PUSH pushes. -/
theorem callFollowsItsRule : Obligations.CallFollowsItsRule := by
  refine ⟨fun s hs => ?inside, fun s r hret => ?effect, fun s hs => ?outside, fun s x hx => ?index,
    fun s r hret => exec_call_returnAddress_outside r hret⟩
  case inside => exact step_of_oneOperand_inside hs fun _ _ => rfl
  case effect =>
    refine ⟨_, exec_call_regByte r hret, ?_, fun _ ha => Memory.read_write_other _ _ ha⟩
    rw [State.pushByte_mem]
    refine (congrArg BitVec.toNat (Memory.read_write_same _ _ _)).trans ?_
    rw [BitVec.toNat_setWidth]
    exact Nat.mod_eq_of_lt (Nat.lt_succ_of_le hret)
  case outside => exact step_of_firstOperand_outside hs rfl
  case index => exact oneReg_of_gt hx _

/-- Settles O18: HLT raises nothing, and its one byte is always fetched whole. -/
theorem hltFollowsItsRule : Obligations.HltFollowsItsRule :=
  ⟨fun _ => rfl, fun _ hs => step_of_noOperands hs fun _ => rfl⟩

end Sys2Proof.Machine

/-! The ALU (R61 to R67). -/

namespace Sys2Proof.Machine

open Sys2Proof

/-- Settles O19: truncation is reduction modulo 256, and the 256 that SUB adds first does not change the residue. -/
theorem aluArithmeticWraps : Obligations.AluArithmeticWraps := by
  intro s a b
  refine ⟨?add, ?sub, ?mul⟩
  case add =>
    rw [← trunc8_eq_ofNat_mod]
    rfl
  case sub =>
    have hsub : trunc8 (256 + s.regs[a].toNat - s.regs[b].toNat) =
        BitVec.ofInt 8 (((s.regs[a].toNat : Int) - (s.regs[b].toNat : Int)) % 256) := by
      apply BitVec.eq_of_toNat_eq
      simp only [trunc8, BitVec.toNat_ofNat, BitVec.toNat_ofInt]
      omega
    rw [← hsub]
    rfl
  case mul =>
    rw [← trunc8_eq_ofNat_mod]
    rfl

/-- Settles O20: the quotient of two bytes is a byte, so truncation keeps it. -/
theorem aluDivisionAndErrors : Obligations.AluDivisionAndErrors := by
  intro s a b
  refine ⟨fun hb => if_pos hb, fun hb => ⟨trunc8 (s.regs[a].toNat / s.regs[b].toNat), if_neg hb, ?_⟩, rfl⟩
  have hpos : 0 < s.regs[b].toNat := Nat.pos_of_ne_zero fun h => hb (BitVec.eq_of_toNat_eq h)
  have hq : (trunc8 (s.regs[a].toNat / s.regs[b].toNat)).toNat = s.regs[a].toNat / s.regs[b].toNat :=
    Nat.mod_eq_of_lt (Nat.lt_of_le_of_lt (Nat.div_le_self _ _) s.regs[a].isLt)
  constructor
  · rw [hq]
    exact Nat.div_mul_le_self _ _
  · rw [hq]
    exact Nat.lt_mul_of_div_lt (Nat.lt_succ_self _) hpos

end Sys2Proof.Machine

/-! Register operands, good and bad (R18, R54). -/

namespace Sys2Proof

/-- The bytes of an instruction that are to name registers, in the order of the checks (R54, R92). -/
def Instr.regOperands : Instr → List Byte
  | .hlt | .ret => []
  | .push r | .pop r | .prn r | .call r | .jmp r | .jeq r | .jne r | .ldi r _ => [r]
  | .mul a b | .cmp a b => [a, b]

/-- The first operand byte that names no register, if there is one. -/
def Instr.badOperand (i : Instr) : Option Byte := i.regOperands.find? (fun b => !namesReg b)

theorem namesReg_of_gt {b : Byte} (h : 7 < b.toNat) : namesReg b = false :=
  decide_eq_false (Nat.not_lt_of_le h)

@[simp] theorem namesReg_regByte (r : Reg) : namesReg (Machine.regByte r) = true := by
  simp [namesReg, Config.nRegs]

/-- Well-formed is to have no bad operand. -/
theorem Instr.wellFormed_iff (i : Instr) : i.wellFormed = true ↔ i.badOperand = none := by
  cases i <;> simp [Instr.wellFormed, Instr.badOperand, Instr.regOperands]

/-- An operand byte found bad names no register. -/
theorem Instr.gt_of_badOperand {i : Instr} {b : Byte} (h : i.badOperand = some b) : 7 < b.toNat :=
  Machine.gt_of_not_namesReg (by simpa using List.find?_some h)

end Sys2Proof

/-! What an instruction and a step can do, said once: an instruction completes with its own effect, or it raises a
fatal error that leaves everything else as it was (R13, R90, R92). -/

namespace Sys2Proof.Machine

open Sys2Proof

/-- A two-byte jump to a register's value, taken or passed by (R84, R85). -/
def State.branch (taken : Bool) (r : Reg) (s : State) : State := if taken then s.jumpTo (s.getReg r) else s.advance 2

/-- The instruction completes in the first state and leaves the second: one constructor per instruction. -/
inductive Completes : Instr → State → State → Prop
  | hlt (s : State) : Completes .hlt s (s.setRunState .halted)
  | ret (s : State) : Completes .ret s ((s.setSp (s.sp + 1)).jumpTo s.popValue)
  | push (r : Reg) (s : State) :
      Completes (.push (regByte r)) s ((s.pushByte (s.readAfterDecrement r)).advance 2)
  | pop (r : Reg) (s : State) : Completes (.pop (regByte r)) s ((s.popInto r s.popValue).advance 2)
  | prn (r : Reg) (s : State) : Completes (.prn (regByte r)) s ((s.emit (s.getReg r)).advance 2)
  | call (r : Reg) (s : State) (hret : (s.pc + 2).toNat ≤ 255) :
      Completes (.call (regByte r)) s ((s.pushByte ((s.pc + 2).setWidth 8)).jumpTo (s.readAfterDecrement r))
  | jmp (r : Reg) (s : State) : Completes (.jmp (regByte r)) s (s.jumpTo (s.getReg r))
  | jeq (r : Reg) (s : State) : Completes (.jeq (regByte r)) s (s.branch s.fl.e r)
  | jne (r : Reg) (s : State) : Completes (.jne (regByte r)) s (s.branch (!s.fl.e) r)
  | ldi (r : Reg) (imm : Byte) (s : State) : Completes (.ldi (regByte r) imm) s ((s.setReg r imm).advance 3)
  | mul (a b : Reg) (s : State) :
      Completes (.mul (regByte a) (regByte b)) s
        ((s.setReg a (trunc8 ((s.getReg a).toNat * (s.getReg b).toNat))).advance 3)
  | cmp (a b : Reg) (s : State) :
      Completes (.cmp (regByte a) (regByte b)) s
        ((s.setFlags (compareFlags (s.getReg a) (s.getReg b))).advance 3)

/-- The instruction raises the fatal error in the state: a bad register operand, or CALL's return address. -/
inductive Raises : Instr → State → FatalError → Prop
  | operand {i : Instr} {b : Byte} (s : State) (hbad : i.badOperand = some b) : Raises i s (addressReg b)
  | returnAddress (r : Reg) (s : State) (hret : 255 < (s.pc + 2).toNat) :
      Raises (.call (regByte r)) s (addressMem (s.pc + 2))

variable {i : Instr} {s t : State} {e : FatalError}

theorem raises_of_regOperands_head {b : Byte} {rest : List Byte} (hi : i.regOperands = b :: rest)
    (hb : 7 < b.toNat) : Raises i s (addressReg b) :=
  .operand s (by simp [Instr.badOperand, hi, namesReg_of_gt hb])

theorem raises_of_regOperands_second {a : Reg} {b : Byte} (hi : i.regOperands = [regByte a, b])
    (hb : 7 < b.toNat) : Raises i s (addressReg b) :=
  .operand s (by simp [Instr.badOperand, hi, namesReg_of_gt hb])

/-- Everything `exec` can answer. -/
theorem exec_cases (h : exec i s = .next t) : Completes i s t ∨ ∃ e, Raises i s e ∧ t = s.raiseFatal e := by
  cases i with
  | hlt => exact .inl (execHlt_cases h ▸ .hlt s)
  | ret => exact .inl (execRet_cases h ▸ .ret s)
  | push b =>
    obtain ⟨r, rfl, rfl⟩ | ⟨hb, rfl⟩ := execPush_cases h
    · exact .inl (.push r s)
    · exact .inr ⟨_, raises_of_regOperands_head rfl hb, rfl⟩
  | pop b =>
    obtain ⟨r, rfl, rfl⟩ | ⟨hb, rfl⟩ := execPop_cases h
    · exact .inl (.pop r s)
    · exact .inr ⟨_, raises_of_regOperands_head rfl hb, rfl⟩
  | prn b =>
    obtain ⟨r, rfl, rfl⟩ | ⟨hb, rfl⟩ := execPrn_cases h
    · exact .inl (.prn r s)
    · exact .inr ⟨_, raises_of_regOperands_head rfl hb, rfl⟩
  | call b =>
    obtain ⟨r, rfl, hret, rfl⟩ | ⟨r, rfl, hret, rfl⟩ | ⟨hb, rfl⟩ := execCall_cases h
    · exact .inl (.call r s hret)
    · exact .inr ⟨_, .returnAddress r s hret, rfl⟩
    · exact .inr ⟨_, raises_of_regOperands_head rfl hb, rfl⟩
  | jmp b =>
    obtain ⟨r, rfl, rfl⟩ | ⟨hb, rfl⟩ := execJmp_cases h
    · exact .inl (.jmp r s)
    · exact .inr ⟨_, raises_of_regOperands_head rfl hb, rfl⟩
  | jeq b =>
    obtain ⟨r, rfl, rfl⟩ | ⟨hb, rfl⟩ := execJeq_cases h
    · exact .inl (.jeq r s)
    · exact .inr ⟨_, raises_of_regOperands_head rfl hb, rfl⟩
  | jne b =>
    obtain ⟨r, rfl, rfl⟩ | ⟨hb, rfl⟩ := execJne_cases h
    · exact .inl (.jne r s)
    · exact .inr ⟨_, raises_of_regOperands_head rfl hb, rfl⟩
  | ldi b imm =>
    obtain ⟨r, rfl, rfl⟩ | ⟨hb, rfl⟩ := execLdi_cases h
    · exact .inl (.ldi r imm s)
    · exact .inr ⟨_, raises_of_regOperands_head rfl hb, rfl⟩
  | mul a b =>
    obtain ⟨ra, rb, rfl, rfl, rfl⟩ | ⟨ha, rfl⟩ | ⟨ra, rfl, hb, rfl⟩ := execMul_cases h
    · exact .inl (.mul ra rb s)
    · exact .inr ⟨_, raises_of_regOperands_head rfl ha, rfl⟩
    · exact .inr ⟨_, raises_of_regOperands_second rfl hb, rfl⟩
  | cmp a b =>
    obtain ⟨ra, rb, rfl, rfl, rfl⟩ | ⟨ha, rfl⟩ | ⟨ra, rfl, hb, rfl⟩ := execCmp_cases h
    · exact .inl (.cmp ra rb s)
    · exact .inr ⟨_, raises_of_regOperands_head rfl ha, rfl⟩
    · exact .inr ⟨_, raises_of_regOperands_second rfl hb, rfl⟩

/-- An instruction in a state completes or raises. -/
theorem completes_or_raises (i : Instr) (s : State) : (∃ t, Completes i s t) ∨ ∃ e, Raises i s e := by
  obtain ⟨t, h⟩ := exec_answers i s
  obtain h | ⟨e, h, -⟩ := exec_cases h
  · exact .inl ⟨t, h⟩
  · exact .inr ⟨e, h⟩

theorem Completes.exec (h : Completes i s t) : exec i s = .next t := by
  cases h with
  | hlt | ret => rfl
  | push r => exact exec_push_regByte r s
  | pop r => exact exec_pop_regByte r s
  | prn r => exact exec_prn_regByte r s
  | call r _ hret => exact exec_call_regByte r hret
  | jmp r => exact exec_jmp_regByte r s
  | jeq r => exact exec_jeq_regByte r s
  | jne r => exact exec_jne_regByte r s
  | ldi r imm => exact exec_ldi_regByte r imm s
  | mul a b => exact exec_mul_regByte a b s
  | cmp a b => exact exec_cmp_regByte a b s

/-- An instruction that completes is well formed. -/
theorem Completes.wellFormed (h : Completes i s t) : i.wellFormed = true := by
  cases h <;> simp [Instr.wellFormed]

theorem Completes.returnAddress_le {b : Byte} (h : Completes (.call b) s t) : (s.pc + 2).toNat ≤ 255 := by
  cases h
  assumption

/-- An instruction whose operand is bad does not complete; a CALL completes only where its return address fits. -/
theorem Completes.not_raises (h : Completes i s t) : ¬ Raises i s e := by
  rintro (⟨_, hbad⟩ | ⟨r, _, hret⟩)
  · rw [i.wellFormed_iff.1 h.wellFormed] at hbad
    cases hbad
  · exact absurd h.returnAddress_le (Nat.not_le_of_lt hret)

/-- The checks of an instruction raise one error. -/
theorem Raises.unique {e' : FatalError} (h : Raises i s e) (h' : Raises i s e') : e = e' := by
  have hcall : ∀ r, (Instr.call (regByte r)).badOperand = none := fun r => by
    simp [Instr.badOperand, Instr.regOperands]
  cases h with
  | operand _ hbad =>
    cases h' with
    | operand _ hbad' =>
      rw [hbad] at hbad'
      cases hbad'
      rfl
    | returnAddress r _ _ =>
      rw [hcall] at hbad
      cases hbad
  | returnAddress r _ _ =>
    generalize hi : Instr.call (regByte r) = i at h'
    cases h' with
    | operand _ hbad =>
      rw [← hi, hcall] at hbad
      cases hbad
    | returnAddress _ _ _ => rfl

theorem Raises.exec (h : Raises i s e) : exec i s = .next (s.raiseFatal e) := by
  obtain ⟨t, ht⟩ := exec_answers i s
  obtain hc | ⟨e', he, rfl⟩ := exec_cases ht
  · exact absurd h hc.not_raises
  · rw [h.unique he, ht]

/-- A fatal error that a program can raise (R89), with a value that does offend. -/
inductive FatalError.Reached : FatalError → Prop
  | mem {addr : PcWord} (h : 255 < addr.toNat) : FatalError.Reached (addressMem addr)
  | reg {b : Byte} (h : 7 < b.toNat) : FatalError.Reached (addressReg b)
  | op {b : Byte} (h : Opcode.ofByte b = none) : FatalError.Reached (unknownOpcode b)

theorem Raises.reached (h : Raises i s e) : e.Reached := by
  cases h with
  | operand _ hbad => exact .reg (Instr.gt_of_badOperand hbad)
  | returnAddress r _ hret => exact .mem hret

/-- A fetch that gives no instruction names an address above 255 or an unlisted opcode (R92). -/
theorem fetchInstr_error_reached (h : s.fetchInstr = .error e) : e.Reached := by
  obtain ⟨d, hd, rfl⟩ := fetchInstr_error_cases h
  have hlen := s.fetchWindow_length
  obtain ⟨hw, rfl⟩ | ⟨b, rest, -, hop, rfl⟩ | ⟨b, op, hw, -, rfl⟩ | ⟨b, x, op, hw, -, rfl⟩ :=
    decode_error_cases hd
  · have : 255 < s.pc.toNat := by simp [hw] at hlen; omega
    exact .mem this
  · exact .op hop
  · have : s.pc.toNat = 255 := by simp [hw] at hlen; omega
    exact .mem (by simp [BitVec.toNat_add, this])
  · have : s.pc.toNat = 254 := by simp [hw] at hlen; omega
    exact .mem (by simp [BitVec.toNat_add, this])

/-- Everything a step can do: the instruction fetched completes, or a fatal error that a program can raise is entered
(R13, R70, R89, R92). -/
theorem step_completes_or_faults (h : step s = .next t) :
    (∃ i, s.fetchInstr = .ok i ∧ Completes i s t) ∨ ∃ e : FatalError, e.Reached ∧ t = s.raiseFatal e := by
  obtain ⟨i, hi, h⟩ | ⟨e, he, rfl⟩ := step_cases h
  · obtain h | ⟨e, he, rfl⟩ := exec_cases h
    · exact .inl ⟨i, hi, h⟩
    · exact .inr ⟨e, he.reached, rfl⟩
  · exact .inr ⟨e, fetchInstr_error_reached he, rfl⟩

/-- A step that runs an instruction which completes leaves what it left. -/
theorem Completes.step (h : Completes i s t) (hrun : s.runState = .running) (hi : s.fetchInstr = .ok i) :
    step s = .next t := by
  rw [step_of_running hrun, hi]
  exact h.exec

/-! What an instruction that completes leaves unchanged, field by field. -/

@[simp] theorem State.branch_mem (s : State) (taken : Bool) (r : Reg) : (s.branch taken r).mem = s.mem := by
  cases taken <;> rfl
@[simp] theorem State.branch_regs (s : State) (taken : Bool) (r : Reg) : (s.branch taken r).regs = s.regs := by
  cases taken <;> rfl
@[simp] theorem State.branch_fl (s : State) (taken : Bool) (r : Reg) : (s.branch taken r).fl = s.fl := by
  cases taken <;> rfl
@[simp] theorem State.branch_runState (s : State) (taken : Bool) (r : Reg) :
    (s.branch taken r).runState = s.runState := by
  cases taken <;> rfl
@[simp] theorem State.branch_fault (s : State) (taken : Bool) (r : Reg) : (s.branch taken r).fault = s.fault := by
  cases taken <;> rfl
@[simp] theorem State.branch_out (s : State) (taken : Bool) (r : Reg) : (s.branch taken r).out = s.out := by
  cases taken <;> rfl

theorem Completes.fault (h : Completes i s t) : t.fault = s.fault := by
  cases h with
  | jeq | jne => exact State.branch_fault _ _ _
  | pop => exact State.popInto_fault _ _ _
  | _ => rfl

/-- Only HLT changes the run state (R29, R73). -/
theorem Completes.runState (h : Completes i s t) :
    t.runState = s.runState ∧ i ≠ .hlt ∨ t.runState = .halted ∧ i = .hlt := by
  cases h with
  | hlt => exact .inr ⟨rfl, rfl⟩
  | jeq | jne => exact .inl ⟨State.branch_runState _ _ _, nofun⟩
  | pop => exact .inl ⟨State.popInto_runState _ _ _, nofun⟩
  | _ => exact .inl ⟨rfl, nofun⟩

/-- Only CMP changes a flag, and it sets the flags of a comparison (R24, R25). -/
theorem Completes.fl (h : Completes i s t) :
    t.fl = s.fl ∨ (∃ a b, i = .cmp a b) ∧ ∃ x y, t.fl = compareFlags x y := by
  cases h with
  | cmp a b => exact .inr ⟨⟨_, _, rfl⟩, _, _, rfl⟩
  | jeq | jne => exact .inl (State.branch_fl _ _ _)
  | pop => exact .inl (State.popInto_fl _ _ _)
  | _ => exact .inl rfl

/-- Only PUSH and CALL write memory, the one cell at SP - 1 (R46). -/
theorem Completes.mem (h : Completes i s t) :
    t.mem = s.mem ∨ (∃ r, i = .push r ∨ i = .call r) ∧ ∃ v, t.mem = s.mem.write s.pushAddr.toNat v := by
  cases h with
  | push r => exact .inr ⟨⟨_, .inl rfl⟩, _, rfl⟩
  | call r => exact .inr ⟨⟨_, .inr rfl⟩, _, rfl⟩
  | jeq | jne => exact .inl (State.branch_mem _ _ _)
  | pop => exact .inl (State.popInto_mem _ _ _)
  | _ => exact .inl rfl

/-- Only PRN changes the output, by its register's value (R31, R78). -/
theorem Completes.out (h : Completes i s t) :
    t.out = s.out ∨ ∃ r : Reg, i = .prn (regByte r) ∧ t.out = s.out ++ [s.regs[r]] := by
  cases h with
  | prn r => exact .inr ⟨r, rfl, rfl⟩
  | jeq | jne => exact .inl (State.branch_out _ _ _)
  | pop => exact .inl (State.popInto_out _ _ _)
  | _ => exact .inl rfl

theorem zext9_toNat_le (b : Byte) : (zext9 b).toNat ≤ 256 := by
  simp only [zext9, BitVec.toNat_setWidth]
  omega

theorem advance_pc_le {n : Nat} (h : s.pc.toNat + n ≤ 256) : (s.advance n).pc.toNat ≤ 256 := by
  simp only [State.advance_pc, BitVec.toNat_add, BitVec.toNat_ofNat]
  omega

/-- The next `pc` is at most one past memory (R22): a redirect goes to a byte, and an advance goes past an instruction
that lies in memory. -/
theorem Completes.pc_le (h : Completes i s t) (hpc : s.pc.toNat + i.length ≤ 256) : t.pc.toNat ≤ 256 := by
  cases h with
  | hlt => exact Nat.le_of_add_right_le hpc
  | ret | call | jmp => exact zext9_toNat_le _
  | jeq | jne =>
    unfold State.branch
    split
    · exact zext9_toNat_le _
    · exact advance_pc_le hpc
  | pop =>
    rw [State.advance_pc, State.popInto_pc]
    exact advance_pc_le hpc
  | push | prn | ldi | mul | cmp => exact advance_pc_le hpc

/-- A register that is neither the one popped into nor SP keeps its value in a pop (R80). -/
theorem State.getReg_popInto (s : State) {x r : Reg} (v : Byte) (hx : r ≠ x) (hsp : r ≠ 7) :
    (s.popInto x v).getReg r = s.getReg r := by
  have hset : ∀ (u : State) (w : Byte), (u.setSp w).getReg r = u.getReg r := fun u w =>
    (State.getReg_setReg u 7 r w).trans (if_neg hsp)
  unfold State.popInto
  split
  · exact hset _ _
  · rw [hset, State.getReg_setReg, if_neg hx]

/-- A register that is none of those the instruction writes keeps its value (R20). -/
theorem Completes.getReg (h : Completes i s t) {r : Reg} (hr : ¬ mayWrite r i) : t.getReg r = s.getReg r := by
  cases h with
  | ret | push | call => exact (State.getReg_setReg s 7 r _).trans (if_neg hr)
  | pop x =>
    obtain ⟨hx, hsp⟩ := not_or.1 hr
    exact s.getReg_popInto _ (fun h => hx (congrArg regByte h.symm)) hsp
  | ldi x | mul x => exact (State.getReg_setReg s x r _).trans (if_neg fun h => hr (congrArg regByte h.symm))
  | jeq | jne => exact State.getReg_congr (s.branch_regs _ _) r
  | _ => rfl

end Sys2Proof.Machine

/-! What steps leave: errors, run states, flags, memory, registers, output (R13, R20, R24, R29, R31, R90). -/

namespace Sys2Proof.Machine

open Sys2Proof

variable {i : Instr} {s t : State} {e : FatalError}

/-- An instruction that completes leaves a RUNNING CORE RUNNING or HALTED. -/
theorem Completes.runState_of_running (h : Completes i s t) (hrun : s.runState = .running) :
    t.runState = .running ∨ t.runState = .halted := by
  obtain ⟨ht, -⟩ | ⟨ht, -⟩ := h.runState
  · exact .inl (ht.trans hrun)
  · exact .inr ht

/-- A step that ends FAULTED entered a fatal error. -/
theorem step_faulted (h : step s = .next t) (ht : t.runState = .faulted) :
    ∃ e : FatalError, e.Reached ∧ t = s.raiseFatal e := by
  obtain ⟨i, -, hc⟩ | he := step_completes_or_faults h
  · obtain hr | hr := hc.runState_of_running (running_of_step h) <;> rw [hr] at ht <;> cases ht
  · exact he

/-- Settles O32: the entry into a fatal error writes the run state and the record only. -/
theorem fatalErrorsArePrecise : Obligations.FatalErrorsArePrecise := by
  intro s t h ht
  obtain ⟨e, -, rfl⟩ := step_faulted h ht
  exact ⟨e.kind, e.info, rfl⟩

/-- Settles O33: the record is that of an error that a program can raise. -/
theorem onlyTwoErrorKindsAreReached : Obligations.OnlyTwoErrorKindsAreReached := by
  intro s t r h ht hr
  obtain ⟨e, he, rfl⟩ := step_faulted h ht
  cases hr
  cases he with
  | mem | reg => exact .inl rfl
  | op => exact .inr rfl

/-- Settles O34: `step` looks at the run state first. -/
theorem noStepOutsideRunning : Obligations.NoStepOutsideRunning := fun s =>
  ⟨fun h => by rw [step, h]; rfl, fun h => by rw [step, h]; rfl, fun h => by rw [step, h]; rfl⟩

/-- A RUNNING CORE's step answers a next state (R70). -/
theorem step_answers (hrun : s.runState = .running) : ∃ t, step s = .next t := by
  rw [step_of_running hrun]
  split
  · exact exec_answers _ _
  · exact ⟨_, rfl⟩

/-- A step leaves the CORE RUNNING, HALTED or FAULTED. -/
theorem step_not_load (h : step s = .next t) : t.runState ≠ .load := by
  obtain ⟨i, -, hc⟩ | ⟨e, -, rfl⟩ := step_completes_or_faults h
  · obtain hr | hr := hc.runState_of_running (running_of_step h) <;> rw [hr] <;> nofun
  · nofun

/-- A step ends HALTED exactly when it ran an HLT (R29, R73). -/
theorem step_halted_iff (h : step s = .next t) : t.runState = .halted ↔ s.fetchInstr = .ok .hlt := by
  have hrun := running_of_step h
  constructor
  · intro ht
    obtain ⟨i, hi, hc⟩ | ⟨e, -, rfl⟩ := step_completes_or_faults h
    · obtain ⟨hr, -⟩ | ⟨-, rfl⟩ := hc.runState
      · rw [hr, hrun] at ht
        cases ht
      · exact hi
    · cases ht
  · intro hi
    rw [(Completes.hlt s).step hrun hi] at h
    cases h
    rfl

/-- Settles O35: by the three lemmas on a RUNNING CORE's step. -/
theorem runningStepsComplete : Obligations.RunningStepsComplete := by
  intro s hrun
  obtain ⟨t, h⟩ := step_answers hrun
  exact ⟨t, h, step_not_load h, step_halted_iff h⟩

theorem runWhileRunning_of_step (n : Nat) (h : step s = .next t) :
    runWhileRunning (n + 1) s = runWhileRunning n t := by
  rw [runWhileRunning, if_pos (running_of_step h), h]

theorem runWhileRunning_of_not_running (n : Nat) (h : s.runState ≠ .running) : runWhileRunning n s = s := by
  cases n with
  | zero => rfl
  | succ n => rw [runWhileRunning, if_neg h]

/-- Watching a run for more steps is watching it on from where it stands. -/
theorem runWhileRunning_add (n k : Nat) (s : State) :
    runWhileRunning (n + k) s = runWhileRunning k (runWhileRunning n s) := by
  induction n generalizing s with
  | zero => rw [Nat.zero_add, runWhileRunning]
  | succ n ih =>
    by_cases hrun : s.runState = .running
    · obtain ⟨t, h⟩ := step_answers hrun
      rw [Nat.add_right_comm, runWhileRunning_of_step _ h, runWhileRunning_of_step _ h, ih]
    · simp only [runWhileRunning_of_not_running _ hrun]

/-- A run that has begun never goes back to LOAD. -/
theorem runWhileRunning_not_load (n : Nat) (h : s.runState ≠ .load) : (runWhileRunning n s).runState ≠ .load := by
  induction n generalizing s with
  | zero => exact h
  | succ n ih =>
    by_cases hrun : s.runState = .running
    · obtain ⟨t, ht⟩ := step_answers hrun
      rw [runWhileRunning_of_step _ ht]
      exact ih (step_not_load ht)
    · rw [runWhileRunning_of_not_running _ hrun]
      exact h

/-- Outside LOAD the host's Run is refused (R95). -/
theorem startRun_of_not_load (h : s.runState ≠ .load) : startRun s = .refused .runOutsideLoad := by
  unfold startRun
  split
  · contradiction
  all_goals rfl

/-- Settles O36: an ended run stays where it stands, by splitting the watched steps. -/
theorem endedRunsStayEnded : Obligations.EndedRunsStayEnded := by
  intro n k s hrun
  have hload : (runWhileRunning n s).runState ≠ .load := runWhileRunning_not_load n (by rw [hrun]; nofun)
  refine ⟨hload, fun hended => ⟨?_, ?_⟩⟩
  · rw [runWhileRunning_add, runWhileRunning_of_not_running k hended]
  · rw [hostRun, startRun_of_not_load hload]

/-- Settles O26: only PUSH and CALL write memory, and they write the cell at SP - 1. -/
theorem storesGoOnlyThroughTheStackPointer : Obligations.StoresGoOnlyThroughTheStackPointer := by
  intro s t addr h hne
  obtain ⟨i, hi, hc⟩ | ⟨e, -, rfl⟩ := step_completes_or_faults h
  · obtain hm | ⟨⟨r, hr⟩, v, hm⟩ := hc.mem
    · exact absurd (by rw [hm]) hne
    · refine ⟨?_, r, by rw [hi]; exact hr.imp (congrArg _) (congrArg _)⟩
      by_contra haddr
      exact hne (by rw [hm]; exact Memory.read_write_other _ _ haddr)
  · exact absurd rfl hne

/-- Settles O29: an error changes no register, and an instruction that completes changes only those it writes. -/
theorem onlyListedRegistersChange : Obligations.OnlyListedRegistersChange := by
  intro i s t r h hne
  by_contra hr
  obtain hc | ⟨e, -, rfl⟩ := exec_cases h
  · exact hne (hc.getReg hr)
  · exact hne rfl

/-- Settles O38: only PRN writes the output, and an error keeps it. -/
theorem outputGrowsOnlyByPrn : Obligations.OutputGrowsOnlyByPrn := by
  intro s t h
  obtain ⟨i, hi, hc⟩ | ⟨e, -, rfl⟩ := step_completes_or_faults h
  · obtain ho | ⟨r, rfl, ho⟩ := hc.out
    · exact .inl ho
    · exact .inr ⟨r, hi, ho⟩
  · exact .inl rfl

/-- A well-formed instruction other than CALL completes. -/
theorem exists_completes (i : Instr) (s : State) (hwf : i.wellFormed = true)
    (hcall : ∀ r, i = .call r → (s.pc + 2).toNat ≤ 255) : ∃ t, Completes i s t := by
  obtain h | ⟨e, hr⟩ := completes_or_raises i s
  · exact h
  · cases hr with
    | operand _ hbad =>
      rw [i.wellFormed_iff.1 hwf] at hbad
      cases hbad
    | returnAddress r _ hret => exact absurd (hcall _ rfl) (Nat.not_le_of_lt hret)

/-- Settles O31: a well-formed instruction completes, an ill-formed one raises the error of its bad operand. -/
theorem registerOperandsDecideTheError : Obligations.RegisterOperandsDecideTheError := by
  intro i s
  constructor
  · intro hwf hret
    obtain ⟨t, hc⟩ := exists_completes i s hwf fun _ _ => hret
    exact ⟨t, hc.exec, hc.fault, hc.runState.imp And.left And.right⟩
  · intro hill
    obtain ⟨b, hb⟩ : ∃ b, i.badOperand = some b :=
      Option.ne_none_iff_exists'.1 fun hnone => by simp [i.wellFormed_iff.2 hnone] at hill
    exact ⟨b, Instr.gt_of_badOperand hb, (Raises.operand s hb).exec⟩

/-- Settles O30: none of the six can raise where its operands are registers, and each advances by its length. -/
theorem sequentialAdvanceIsTheLength : Obligations.SequentialAdvanceIsTheLength := by
  intro i s hwf hi
  obtain ⟨t, hc⟩ := exists_completes i s hwf fun r hr => by simp [hr] at hi
  refine ⟨t, hc.exec, ?_⟩
  cases hc with
  | push | prn | ldi | mul | cmp => rfl
  | pop =>
    rw [State.advance_pc, State.popInto_pc]
    rfl
  | _ => simp at hi

/-- Settles O23: the CMP sets E exactly when the two values are equal, and leaves the registers alone. -/
theorem branchesFollowTheComparison : Obligations.BranchesFollowTheComparison := by
  intro s a b r
  refine ⟨_, exec_cmp_regByte a b s, ?_⟩
  generalize ht : (s.setFlags (compareFlags (s.getReg a) (s.getReg b))).advance 3 = t
  have he : t.fl.e = decide (s.regs[a] = s.regs[b]) := by
    rw [← ht, compareFlags_eq]
    rfl
  have hr : s.regs[r] = t.regs[r] := by
    rw [← ht]
    rfl
  obtain ⟨-, jeqTaken, jeqPassed, -⟩ := jeqFollowsItsRule
  obtain ⟨-, jneTaken, jnePassed, -⟩ := jneFollowsItsRule
  by_cases hab : s.regs[a] = s.regs[b]
  · have he : t.fl.e = true := he.trans (decide_eq_true hab)
    rw [if_pos hab, if_pos hab, hr]
    exact ⟨jeqTaken t r he, jnePassed t r he⟩
  · have he : t.fl.e = false := he.trans (decide_eq_false hab)
    rw [if_neg hab, if_neg hab, hr]
    exact ⟨jeqPassed t r he, jneTaken t r he⟩

end Sys2Proof.Machine

/-! Two runs side by side: what no instruction reads (R24, R31). -/

namespace Sys2Proof.Machine

open Sys2Proof

variable {i : Instr} {s s' t : State} {e : FatalError}

/-- Fetching reads memory and `pc` only. -/
theorem fetchInstr_congr (hmem : s'.mem = s.mem) (hpc : s'.pc = s.pc) : s'.fetchInstr = s.fetchInstr := by
  have hwindow : s'.fetchWindow = s.fetchWindow := by
    rw [State.fetchWindow_eq, State.fetchWindow_eq, hmem, hpc]
  have herror : s'.fetchError = s.fetchError := by
    funext d
    cases d <;> simp [State.fetchError, hpc]
  rw [State.fetchInstr, State.fetchInstr, hwindow, herror]

/-- The checks of an instruction read `pc` only. -/
theorem Raises.congr (h : Raises i s e) (hpc : s'.pc = s.pc) : Raises i s' e := by
  cases h with
  | operand _ hbad => exact .operand s' hbad
  | returnAddress r _ hret =>
    rw [← hpc] at hret ⊢
    exact .returnAddress r s' hret

/-- Two states that fetch alike take related steps, if every instruction that completes in the one completes relatedly
in the other and the entries into a fatal error are related. -/
theorem step_related {R : State → State → Prop} (hrun : s'.runState = s.runState) (hmem : s'.mem = s.mem)
    (hpc : s'.pc = s.pc) (hcompletes : ∀ i t, Completes i s t → ∃ t', Completes i s' t' ∧ R t t')
    (hraise : ∀ e, R (s.raiseFatal e) (s'.raiseFatal e)) (h : step s = .next t) :
    ∃ t', step s' = .next t' ∧ R t t' := by
  have hrun' : s'.runState = .running := hrun.trans (running_of_step h)
  have hfetch := fetchInstr_congr hmem hpc
  obtain ⟨i, hi, hexec⟩ | ⟨e, he, rfl⟩ := step_cases h
  · obtain hc | ⟨e, he, rfl⟩ := exec_cases hexec
    · obtain ⟨t', hc', hR⟩ := hcompletes i t hc
      exact ⟨t', hc'.step hrun' (hfetch.trans hi), hR⟩
    · refine ⟨_, ?_, hraise e⟩
      rw [step_of_running hrun', hfetch, hi]
      exact (he.congr hpc).exec
  · refine ⟨_, ?_, hraise e⟩
    rw [step_of_running hrun', hfetch, he]

/-- The state with earlier output in front of its own. -/
def State.afterOutput (earlier : List Byte) (s : State) : State := { s with out := earlier ++ s.out }

theorem State.branch_afterOutput (earlier : List Byte) (s : State) (taken : Bool) (r : Reg) :
    (s.afterOutput earlier).branch taken r = (s.branch taken r).afterOutput earlier := by
  cases taken <;> rfl

theorem State.popInto_afterOutput (earlier : List Byte) (s : State) (r : Reg) (v : Byte) :
    (s.afterOutput earlier).popInto r v = (s.popInto r v).afterOutput earlier := by
  unfold State.popInto
  split <;> rfl

theorem State.emit_afterOutput (earlier : List Byte) (s : State) (v : Byte) :
    (s.afterOutput earlier).emit v = (s.emit v).afterOutput earlier := by
  simp [State.emit, State.afterOutput]

theorem Completes.of_eq {u : State} (h : Completes i s u) (ht : u = t) : Completes i s t := ht ▸ h

/-- Earlier output stays in front of what an instruction leaves. -/
theorem Completes.afterOutput (h : Completes i s t) (earlier : List Byte) :
    Completes i (s.afterOutput earlier) (t.afterOutput earlier) := by
  cases h with
  | hlt => exact .hlt _
  | ret => exact .ret _
  | push r => exact .push r _
  | pop r => exact (Completes.pop r _).of_eq (congrArg (State.advance 2) (s.popInto_afterOutput earlier r _))
  | prn r => exact (Completes.prn r _).of_eq (congrArg (State.advance 2) (s.emit_afterOutput earlier _))
  | call r _ hret => exact .call r _ hret
  | jmp r => exact .jmp r _
  | jeq r => exact (Completes.jeq r _).of_eq (s.branch_afterOutput earlier _ r)
  | jne r => exact (Completes.jne r _).of_eq (s.branch_afterOutput earlier _ r)
  | ldi r imm => exact .ldi r imm _
  | mul a b => exact .mul a b _
  | cmp a b => exact .cmp a b _

/-- Settles O39: fetching, the checks and every instruction's effect leave earlier output where it is. -/
theorem outputIsNeverRead : Obligations.OutputIsNeverRead := by
  intro s t earlier h
  obtain ⟨t', ht', rfl⟩ := step_related (s := s) (s' := s.afterOutput earlier)
    (R := fun t t' => t' = t.afterOutput earlier)
    rfl rfl rfl (fun i t hc => ⟨_, hc.afterOutput earlier, rfl⟩) (fun _ => rfl) h
  exact ht'

/-- Two states that differ at most in the flags L and G. -/
def SameButLG (s t : State) : Prop := t.withLG false false = s.withLG false false

theorem sameButLG_branch (s : State) (l g taken : Bool) (r : Reg) :
    SameButLG (s.branch taken r) ((s.withLG l g).branch taken r) := by
  cases taken <;> rfl

theorem sameButLG_popInto (s : State) (l g : Bool) (r : Reg) (v : Byte) :
    SameButLG ((s.popInto r v).advance 2) (((s.withLG l g).popInto r v).advance 2) := by
  unfold SameButLG State.popInto
  split <;> rfl

/-- An instruction that completes does so with other flags L and G as well, and leaves the same but for these. -/
theorem Completes.otherLG (h : Completes i s t) (l g : Bool) :
    ∃ t', Completes i (s.withLG l g) t' ∧ SameButLG t t' := by
  cases h with
  | hlt => exact ⟨_, .hlt _, rfl⟩
  | ret => exact ⟨_, .ret _, rfl⟩
  | push r => exact ⟨_, .push r _, rfl⟩
  | pop r => exact ⟨_, .pop r _, sameButLG_popInto s l g r _⟩
  | prn r => exact ⟨_, .prn r _, rfl⟩
  | call r _ hret => exact ⟨_, .call r _ hret, rfl⟩
  | jmp r => exact ⟨_, .jmp r _, rfl⟩
  | jeq r => exact ⟨_, .jeq r _, sameButLG_branch s l g _ r⟩
  | jne r => exact ⟨_, .jne r _, sameButLG_branch s l g _ r⟩
  | ldi r imm => exact ⟨_, .ldi r imm _, rfl⟩
  | mul a b => exact ⟨_, .mul a b _, rfl⟩
  | cmp a b => exact ⟨_, .cmp a b _, rfl⟩

/-- Settles O22: only CMP's effect has flags in it, and JEQ and JNE look at E alone. -/
theorem onlyCmpWritesFlagsAndNoneReadsLG : Obligations.OnlyCmpWritesFlagsAndNoneReadsLG := by
  refine ⟨fun s t h hne => ?writes, fun i s t h hi => ?keeps, fun s t l g h => ?reads⟩
  case writes =>
    obtain ⟨i, hi, hc⟩ | ⟨e, -, rfl⟩ := step_completes_or_faults h
    · obtain hfl | ⟨⟨a, b, rfl⟩, -⟩ := hc.fl
      · exact absurd hfl hne
      · exact ⟨a, b, hi⟩
    · exact absurd rfl hne
  case keeps =>
    obtain hc | ⟨e, -, rfl⟩ := exec_cases h
    · obtain hfl | ⟨⟨a, b, rfl⟩, -⟩ := hc.fl
      · exact hfl
      · exact absurd rfl (hi a b)
    · rfl
  case reads =>
    exact step_related (s := s) (s' := s.withLG l g) (R := SameButLG) rfl rfl rfl
      (fun i t hc => hc.otherLG l g) (fun _ => rfl) h

end Sys2Proof.Machine

/-! The state invariant (R15, R22, R25, R29, R30), and what it says of runs and of the host's report (R88, R89). -/

namespace Sys2Proof.Machine

open Sys2Proof

variable {s t : State} {e : FatalError}

/-- A fatal error that a program can raise leaves a legal record. -/
theorem FatalError.Reached.legal (h : e.Reached) (fpc : PcWord) :
    FaultRecord.legal ⟨e.kind, fpc, e.info⟩ = true := by
  cases h with
  | mem h => exact decide_eq_true h
  | reg h => exact decide_eq_true h
  | op h => exact Option.isNone_iff_eq_none.2 h

/-- Settles O47: reset lists no cell, sets no flag and records no fault. -/
theorem invAtReset : Obligations.InvAtReset where
  memCanonical := Memory.reset_wf
  flagsExclusive := rfl
  pcInRange := by decide
  faultIffFaulted := by decide
  faultLegal := nofun

/-- In a sound state that is not FAULTED there is no fault record. -/
theorem State.Inv.fault_eq_none (hs : s.Inv) (h : s.runState ≠ .faulted) : s.fault = none :=
  Option.not_isSome_iff_eq_none.1 fun hf => h (hs.faultIffFaulted.1 hf)

/-- The entry into a fatal error that a program or a load reaches keeps the invariant. -/
theorem State.Inv.raiseAt (hs : s.Inv) (he : e.Reached) (fpc : PcWord) : (s.raiseAt fpc e).Inv where
  memCanonical := hs.memCanonical
  flagsExclusive := hs.flagsExclusive
  pcInRange := hs.pcInRange
  faultIffFaulted := by simp
  faultLegal := by
    rintro _ ⟨⟩
    exact he.legal fpc

/-- One write to a cell keeps the canonical form. -/
theorem Completes.mem_wf {i : Instr} (h : Completes i s t) (hs : s.mem.wf = true) : t.mem.wf = true := by
  obtain hm | ⟨-, v, hm⟩ := h.mem <;> rw [hm]
  · exact hs
  · exact Memory.write_wf hs s.pushAddr.isLt

theorem Flags.atMostOne_of_exactlyOne {f : Flags} (h : f.exactlyOne = true) : f.atMostOne = true := by
  simp [Flags.atMostOne, h]

theorem Completes.flags_atMostOne {i : Instr} (h : Completes i s t) (hs : s.fl.atMostOne = true) :
    t.fl.atMostOne = true := by
  obtain hfl | ⟨-, x, y, hfl⟩ := h.fl <;> rw [hfl]
  · exact hs
  · exact Flags.atMostOne_of_exactlyOne (compareFlags_exactlyOne x y)

/-- An instruction that completes from a sound RUNNING state leaves no fault record and no FAULTED CORE. -/
theorem Completes.no_fault {i : Instr} (h : Completes i s t) (hs : s.Inv) (hrun : s.runState = .running) :
    t.fault = none ∧ t.runState ≠ .faulted := by
  constructor
  · exact h.fault.trans (hs.fault_eq_none (by rw [hrun]; nofun))
  · obtain hr | hr := h.runState_of_running hrun <;> rw [hr] <;> nofun

/-- An instruction that was fetched and completes keeps the invariant. -/
theorem Completes.inv {i : Instr} (h : Completes i s t) (hs : s.Inv) (hrun : s.runState = .running)
    (hi : s.fetchInstr = .ok i) : t.Inv := by
  obtain ⟨hnone, hne⟩ := h.no_fault hs hrun
  exact {
    memCanonical := h.mem_wf hs.memCanonical
    flagsExclusive := h.flags_atMostOne hs.flagsExclusive
    pcInRange := h.pc_le (pc_add_length_le_of_fetchInstr hi)
    faultIffFaulted := by simp [hnone, hne]
    faultLegal := by simp [hnone] }

/-- Settles O48: an instruction that completes keeps the invariant field by field, and so does the entry into a fatal
error that a program can raise. -/
theorem stepKeepsInv : Obligations.StepKeepsInv := by
  intro s t hs h
  obtain ⟨i, hi, hc⟩ | ⟨e, he, rfl⟩ := step_completes_or_faults h
  · exact hc.inv hs (running_of_step h) hi
  · exact hs.raiseAt he s.pc

/-- In LOAD a byte is written to a cell that exists (R96). -/
theorem loadByte_of_le {addr : PcWord} (b : Byte) (hload : s.runState = .load) (h : addr.toNat ≤ 255) :
    loadByte addr b s = .next { s with mem := s.mem.write addr.toNat b } := by
  simp only [loadByte, hload, s.memWrite_of_le b h]

/-- In LOAD an address above 255 is a fatal error recorded at that address (R30, R96). -/
theorem loadByte_of_gt {addr : PcWord} (b : Byte) (hload : s.runState = .load) (h : 255 < addr.toNat) :
    loadByte addr b s = .next (s.raiseAt addr (addressMem addr)) := by
  simp only [loadByte, hload, s.memWrite_of_gt b h]

theorem loadByte_of_not_load (addr : PcWord) (b : Byte) (h : s.runState ≠ .load) :
    loadByte addr b s = .refused .loadByteOutsideLoad := by
  unfold loadByte
  split
  · contradiction
  all_goals rfl

theorem startRun_of_load (h : s.runState = .load) : startRun s = .next (s.setRunState .running) := by
  rw [startRun, h]

/-- Settles O41: the bounds check is that of every memory access, with the load address as the record's. -/
theorem loadByteWritesOneCell : Obligations.LoadByteWritesOneCell := fun s addr b =>
  ⟨fun hload hin => ⟨_, loadByte_of_le b hload hin, fun a => Memory.read_write s.mem addr.toNat a b⟩,
    loadByte_of_gt b, loadByte_of_not_load addr b⟩

/-- A LoadByte keeps the invariant. -/
theorem State.Inv.loadByte {addr : PcWord} {b : Byte} (hs : s.Inv) (h : loadByte addr b s = .next t) : t.Inv := by
  by_cases hload : s.runState = .load
  · obtain hout | hin := Nat.lt_or_ge 255 addr.toNat
    · rw [loadByte_of_gt b hload hout] at h
      cases h
      exact hs.raiseAt (.mem hout) addr
    · rw [loadByte_of_le b hload hin] at h
      cases h
      exact { hs with memCanonical := Memory.write_wf hs.memCanonical (Nat.lt_succ_of_le hin) }
  · rw [loadByte_of_not_load addr b hload] at h
    cases h

/-- The start of a run keeps the invariant. -/
theorem State.Inv.startRun (hs : s.Inv) (h : startRun s = .next t) : t.Inv := by
  by_cases hload : s.runState = .load
  · have hnone : s.fault = none := hs.fault_eq_none (by rw [hload]; nofun)
    rw [startRun_of_load hload] at h
    cases h
    exact { hs with faultIffFaulted := by simp [hnone] }
  · rw [startRun_of_not_load hload] at h
    cases h

/-- Settles O49: by the two lemmas above. -/
theorem hostOperationsKeepInv : Obligations.HostOperationsKeepInv := fun _ _ hs =>
  ⟨fun _ _ h => hs.loadByte h, fun h => hs.startRun h⟩

/-- Every reachable state is sound: reset is, and every operation keeps it so. -/
theorem Reachable.inv (h : Reachable s) : s.Inv := by
  induction h with
  | reset => exact invAtReset
  | loadByte addr b _ hload ih => exact ih.loadByte hload
  | run _ hrun ih => exact ih.startRun hrun
  | step _ hstep ih => exact stepKeepsInv _ _ ih hstep

/-- Settles O50: the invariant has a record in every FAULTED state, and has it legal. -/
theorem reachableStatesAreSound : Obligations.ReachableStatesAreSound := by
  intro s h
  refine ⟨h.inv, fun hf => ?_⟩
  obtain ⟨r, hr⟩ := Option.isSome_iff_exists.1 (h.inv.faultIffFaulted.2 hf)
  exact ⟨r, hr, h.inv.faultLegal r hr⟩

/-- Settles O37: a sound state with a record is FAULTED, where nothing moves. -/
theorem faultRecordIsWrittenOnce : Obligations.FaultRecordIsWrittenOnce := by
  intro s hs hf
  have hfaulted := hs.faultIffFaulted.1 hf
  have hload : s.runState ≠ .load := by rw [hfaulted]; nofun
  obtain ⟨-, -, hstop⟩ := noStepOutsideRunning s
  exact ⟨hstop hfaulted, startRun_of_not_load hload,
    fun addr b => loadByte_of_not_load addr b hload⟩

/-- Settles O52: an instruction that completes leaves no record, and the report of an error entered is its own. -/
theorem stepsReportTheirErrorCodes : Obligations.StepsReportTheirErrorCodes := by
  intro s t hs h
  obtain ⟨i, -, hc⟩ | ⟨e, he, rfl⟩ := step_completes_or_faults h
  · obtain ⟨hnone, hne⟩ := hc.no_fault hs (running_of_step h)
    refine ⟨fun _ => ?_, fun hf => absurd hf hne⟩
    rw [inspect_fault, hnone, faultReport_none]
  · refine ⟨fun hne => absurd rfl hne, fun _ => ?_⟩
    cases he with
    | mem haddr => exact .inl ⟨_, haddr, rfl⟩
    | reg hindex => exact .inr (.inl ⟨_, hindex, rfl⟩)
    | op hop => exact .inr (.inr ⟨_, hop, rfl⟩)

end Sys2Proof.Machine

/-! The stack and memory (R41, R42, R46, R80). -/

namespace Sys2Proof.Machine

open Sys2Proof

/-- Register files that read alike are equal. -/
theorem regs_ext {u v : Vector Byte 8} (h : ∀ q : Reg, u[q] = v[q]) : u = v :=
  Vector.ext fun k hk => h ⟨k, hk⟩

/-- What a pop reads is what was just pushed. -/
theorem State.popValue_pushByte (s : State) (v : Byte) : (s.pushByte v).popValue = v :=
  s.read_pushByte_sp v

theorem State.sp_pushByte (s : State) (v : Byte) : (s.pushByte v).sp = s.sp - 1 :=
  s.pushByte_regs_sp v

theorem State.popInto_sp (s : State) (v : Byte) : s.popInto 7 v = s.setSp (v + 1) := rfl

theorem State.popInto_other (s : State) {r : Reg} (v : Byte) (h : r ≠ 7) :
    s.popInto r v = (s.setReg r v).setSp (s.sp + 1) :=
  if_neg h

theorem State.readAfterDecrement_other (s : State) {r : Reg} (h : r ≠ 7) :
    s.readAfterDecrement r = s.getReg r :=
  if_neg h

/-- Popping into a register what it was pushed with restores the register file: SP for R7, else SP and the register
(R80, D23). -/
theorem State.popInto_pushByte_regs (s : State) (r : Reg) :
    ((s.pushByte (s.readAfterDecrement r)).popInto r (s.readAfterDecrement r)).regs = s.regs := by
  have hback : s.sp - 1 + 1 = s.sp := BitVec.sub_add_cancel _ _
  refine regs_ext fun q => ?_
  by_cases hsp : q = 7
  · subst hsp
    by_cases hr : r = 7
    · rw [hr, State.popInto_sp]
      exact (State.sp_setSp _ _).trans hback
    · rw [State.popInto_other _ _ hr, State.sp_pushByte, hback]
      exact State.sp_setSp _ _
  · by_cases hq : q = r
    · subst hq
      rw [State.popInto_other _ _ hsp, State.readAfterDecrement_other _ hsp]
      exact (State.getReg_setReg _ 7 q _).trans ((if_neg hsp).trans (State.getReg_setReg_same _ q _))
    · exact (State.getReg_popInto _ _ hq hsp).trans (s.pushByte_regs_other _ hsp)

theorem State.popInto_advance (s : State) (n : Nat) (r : Reg) (v : Byte) :
    (s.advance n).popInto r v = (s.popInto r v).advance n := by
  unfold State.popInto
  split <;> rfl

/-- A pop's register writes touch the register file only. -/
theorem State.popInto_eq (s : State) (r : Reg) (v : Byte) :
    s.popInto r v = { s with regs := (s.popInto r v).regs } := by
  unfold State.popInto
  split <;> rfl

/-- Settles O25: the pop reads the byte the push wrote, and increments the SP it decremented. -/
theorem popUndoesPush : Obligations.PopUndoesPush := by
  intro s r
  refine ⟨_, exec_push_regByte r s, ?_, Memory.read_write_same _ _ _⟩
  have hvalue : ((s.pushByte (s.readAfterDecrement r)).advance 2).popValue = s.readAfterDecrement r :=
    s.popValue_pushByte _
  have hpc : s.pc + 2 + 2 = s.pc + 4 := BitVec.add_assoc _ _ _
  rw [exec_pop_regByte, hvalue, State.popInto_advance, State.popInto_eq, State.popInto_pushByte_regs, ← hpc]
  rfl

/-- Settles O27: the byte at the next `pc` is the byte pushed. -/
theorem pushedByteIsFetched : Obligations.PushedByteIsFetched := by
  intro s r hrun hr hpc
  have hat : ((s.pushByte s.regs[r]).advance 2).AtOpcode s.regs[r] := by
    refine ⟨hrun, ?_, ?_⟩
    · exact hpc.trans_le (Nat.le_of_lt_succ (s.regs[7] - 1).isLt)
    · exact (congrArg _ hpc).trans (Memory.read_write_same s.mem _ _)
  have hread : s.readAfterDecrement r = s.regs[r] := if_neg hr
  refine ⟨_, exec_push_regByte r s, ?_⟩
  rw [hread]
  refine ⟨fun hv => ?_, fun hop => step_of_unlisted hat hop⟩
  rw [hv] at hat ⊢
  exact step_of_noOperands hat fun _ => rfl

theorem Memory.read_cons_self (k : Nat) (w : Byte) (m : Memory) : Memory.read ((k, w) :: m) k = w :=
  if_pos rfl

theorem Memory.read_cons_other {k a : Nat} (h : a ≠ k) (w : Byte) (m : Memory) :
    Memory.read ((k, w) :: m) a = m.read a :=
  if_neg h

/-- A memory in canonical form from `lo` on lists no cell before `lo`. -/
theorem Memory.read_of_lt {lo a : Nat} {m : Memory} (h : Memory.wfFrom lo m = true) (ha : a < lo) :
    m.read a = Config.absentByte := by
  induction m generalizing lo with
  | nil => rfl
  | cons c m ih =>
    obtain ⟨k, w⟩ := c
    obtain ⟨hk, -, -, hm⟩ := Memory.wfFrom_cons.1 h
    rw [Memory.read_cons_other (by omega), ih hm (by omega)]

/-- Canonical memories that read alike are equal, by induction on the first, whose first cell must be the second's. -/
theorem Memory.eq_of_read_eq {lo : Nat} {m n : Memory} (hm : Memory.wfFrom lo m = true)
    (hn : Memory.wfFrom lo n = true) (h : ∀ a, m.read a = n.read a) : m = n := by
  induction m generalizing lo n with
  | nil =>
    cases n with
    | nil => rfl
    | cons d n =>
      obtain ⟨-, -, hv, -⟩ := Memory.wfFrom_cons.1 hn
      exact absurd ((Memory.read_cons_self d.1 d.2 n).symm.trans (h d.1).symm) hv
  | cons c m ih =>
    obtain ⟨k, w⟩ := c
    obtain ⟨hk, -, hw, hm'⟩ := Memory.wfFrom_cons.1 hm
    cases n with
    | nil => exact absurd ((Memory.read_cons_self k w m).symm.trans (h k)) hw
    | cons d n =>
      obtain ⟨l, v⟩ := d
      obtain ⟨hl, -, hv, hn'⟩ := Memory.wfFrom_cons.1 hn
      obtain hlt | rfl | hgt := Nat.lt_trichotomy k l
      · have hread := h k
        rw [Memory.read_cons_self, Memory.read_cons_other hlt.ne, Memory.read_of_lt hn' (by omega)] at hread
        exact absurd hread hw
      · have hread := h k
        rw [Memory.read_cons_self, Memory.read_cons_self] at hread
        rw [hread, ih hm' hn' fun a => ?_]
        by_cases ha : a = k
        · rw [ha, Memory.read_of_lt hm' (Nat.lt_succ_self k), Memory.read_of_lt hn' (Nat.lt_succ_self k)]
        · simpa only [Memory.read_cons_other ha] using h a
      · have hread := h l
        rw [Memory.read_cons_self, Memory.read_cons_other hgt.ne, Memory.read_of_lt hm' (by omega)] at hread
        exact absurd hread.symm hv

/-- Settles O28: at address 0. -/
theorem canonicalMemoriesAreDeterminedByReads : Obligations.CanonicalMemoriesAreDeterminedByReads :=
  fun _ _ hm hn h => Memory.eq_of_read_eq hm hn h

end Sys2Proof.Machine

/-! Reset, boot and what the host reads (R27, R88, R95 to R97, R104, R107). -/

namespace Sys2Proof.Machine

open Sys2Proof

variable {s t : State}

/-- Settles O40: `hostReset` gives `State.reset`, whose registers are listed one by one. -/
theorem resetLeavesTheListedValues : Obligations.ResetLeavesTheListedValues := by
  intro s
  have hregs : ∀ r : Reg, r ≠ 7 → resetRegs[r] = 0 := by decide
  exact ⟨Memory.read_nil, hregs, rfl, rfl, rfl, rfl, rfl, rfl⟩

/-- Memory with bytes written from `addr` on. -/
def Memory.writeFrom : Nat → List Byte → Memory → Memory
  | _, [], m => m
  | addr, b :: rest, m => Memory.writeFrom (addr + 1) rest (m.write addr b)

/-- Each cell from `addr` on holds its byte, as far as there are bytes; every other cell is as before. -/
theorem Memory.read_writeFrom (addr : Nat) (bytes : List Byte) (m : Memory) (a : Nat) :
    (m.writeFrom addr bytes).read a = if addr ≤ a then (bytes[a - addr]?).getD (m.read a) else m.read a := by
  induction bytes generalizing addr m with
  | nil => simp [Memory.writeFrom]
  | cons b rest ih =>
    rw [Memory.writeFrom, ih]
    obtain hlt | rfl | hgt := Nat.lt_trichotomy a addr
    · rw [if_neg (by omega), if_neg (by omega), Memory.read_write_other _ _ hlt.ne]
    · simp
    · have hnext : a - addr = a - (addr + 1) + 1 := by omega
      rw [if_pos (by omega), if_pos (by omega), Memory.read_write_other _ _ hgt.ne', hnext, List.getElem?_cons_succ]

theorem Memory.writeFrom_wf {addr : Nat} {bytes : List Byte} {m : Memory} (hm : m.wf = true)
    (h : addr + bytes.length ≤ 256) : (m.writeFrom addr bytes).wf = true := by
  induction bytes generalizing addr m with
  | nil => exact hm
  | cons b rest ih =>
    rw [List.length_cons] at h
    exact ih (Memory.write_wf hm (by rw [Config.memSize]; omega)) (by omega)

theorem toNat_ofNat_of_le {addr : Nat} (h : addr ≤ 256) : (BitVec.ofNat 9 addr).toNat = addr :=
  Nat.mod_eq_of_lt (by omega)

/-- One byte of a load that fits memory. -/
theorem loadBytesFrom_cons {addr : Nat} (b : Byte) (rest : List Byte) (hload : s.runState = .load)
    (h : addr ≤ 255) :
    loadBytesFrom addr (b :: rest) s = loadBytesFrom (addr + 1) rest { s with mem := s.mem.write addr b } := by
  have haddr : (BitVec.ofNat 9 addr).toNat = addr := toNat_ofNat_of_le (by omega)
  rw [loadBytesFrom, loadByte_of_le b hload (by omega), haddr]
  exact if_pos hload

/-- A load that fits memory writes its bytes and nothing else (R96). -/
theorem loadBytesFrom_of_fits {addr : Nat} {bytes : List Byte} (hload : s.runState = .load)
    (h : addr + bytes.length ≤ 256) :
    loadBytesFrom addr bytes s = .next { s with mem := s.mem.writeFrom addr bytes } := by
  induction bytes generalizing addr s with
  | nil => rfl
  | cons b rest ih =>
    rw [List.length_cons] at h
    rw [loadBytesFrom_cons b rest hload (by omega)]
    exact ih hload (by omega)

/-- A load that does not fit memory ends in the fatal error of address 256 (R96). -/
theorem loadBytesFrom_of_overflow {addr : Nat} {bytes : List Byte} (hload : s.runState = .load)
    (haddr : addr ≤ 256) (h : 256 < addr + bytes.length) :
    ∃ m, loadBytesFrom addr bytes s = .next (State.raiseAt 256 (addressMem 256) { s with mem := m }) := by
  induction bytes generalizing addr s with
  | nil => exact absurd h (Nat.not_lt_of_le haddr)
  | cons b rest ih =>
    rw [List.length_cons] at h
    obtain hin | rfl : addr ≤ 255 ∨ addr = 256 := by omega
    · rw [loadBytesFrom_cons b rest hload hin]
      exact ih hload (by omega) (by omega)
    · refine ⟨s.mem, ?_⟩
      rw [loadBytesFrom, loadByte_of_gt b hload (by decide)]
      rfl

/-- Settles O42: reset lists no cell, so the cells behind the image read 0x00; after an overflow the CORE is FAULTED,
where Run is refused. -/
theorem bootLoadsTheImageFromZero : Obligations.BootLoadsTheImageFromZero := by
  intro image s
  constructor
  · intro hfits
    have hload : loadImage image (hostReset s) = _ :=
      loadBytesFrom_of_fits rfl ((Nat.zero_add _).trans_le hfits)
    refine ⟨_, ?_, Memory.writeFrom_wf Memory.reset_wf ((Nat.zero_add _).trans_le hfits), fun a => ?_⟩
    · rw [boot, hload]
      rfl
    · rw [Memory.read_writeFrom, if_pos (Nat.zero_le a)]
      rfl
  · intro hover
    obtain ⟨m, hload⟩ : ∃ m, loadImage image (hostReset s) = _ :=
      loadBytesFrom_of_overflow rfl (Nat.zero_le _) (hover.trans_eq (Nat.zero_add _).symm)
    refine ⟨⟨_, hload, rfl, rfl⟩, ?_⟩
    rw [boot, hload]
    rfl

/-- Each flag is a bit of the flags' byte (R27). -/
theorem Flags.toByte_bits (f : Flags) :
    f.toByte.getLsbD 2 = f.l ∧ f.toByte.getLsbD 1 = f.g ∧ f.toByte.getLsbD 0 = f.e := by
  obtain ⟨l, g, e⟩ := f
  cases l <;> cases g <;> cases e <;> decide

theorem Flags.toByte_toNat (f : Flags) : f.toByte.toNat = 4 * f.l.toNat + 2 * f.g.toNat + f.e.toNat := by
  obtain ⟨l, g, e⟩ := f
  cases l <;> cases g <;> cases e <;> rfl

theorem Flags.toByte_injective {f f' : Flags} (h : f.toByte = f'.toByte) : f = f' := by
  obtain ⟨hl, hg, he⟩ := f.toByte_bits
  obtain ⟨hl', hg', he'⟩ := f'.toByte_bits
  rw [h] at hl hg he
  exact Flags.mk.injEq .. ▸ ⟨hl.symm.trans hl', hg.symm.trans hg', he.symm.trans he'⟩

theorem RunState.code_injective {r r' : RunState} (h : r.code = r'.code) : r = r' := by
  revert h
  cases r <;> cases r' <;> decide

/-- Settles O43: each piece of state is shown, the flags, the run state and the fault through injective codes. -/
theorem inspectShowsEverything : Obligations.InspectShowsEverything := by
  refine ⟨fun s t h => ?_, fun s => s.fl.toByte_toNat⟩
  obtain ⟨mem, regs, pc, fl, runState, fault, out⟩ := s
  obtain ⟨mem', regs', pc', fl', runState', fault', out'⟩ := t
  simp only [inspect, Inspection.mk.injEq] at h
  obtain ⟨rfl, rfl, hfl, rfl, hrun, hfault, rfl⟩ := h
  rw [Flags.toByte_injective hfl, RunState.code_injective hrun, faultReport_injective hfault]

end Sys2Proof.Machine

/-! Image text (R60, R88): which lines are errors, and which are a byte. -/

namespace Sys2Proof.Machine

open Sys2Proof

theorem parseImageLine_error {line : List Char} {kind : ErrorKind} (h : parseImageLine line = .error kind) :
    kind = .loadError := by
  dsimp only [parseImageLine] at h
  split at h
  · cases h
  · split at h <;> cases h
    rfl

/-- The lines of an image are read in order, and the first error is the answer. -/
theorem parseImageLines_cons (line : List Char) (rest : List (List Char)) :
    parseImageLines (line :: rest) =
      (parseImageLine line).bind fun b => (parseImageLines rest).map fun bytes => b.toList ++ bytes := by
  rw [parseImageLines]
  cases parseImageLine line <;> cases parseImageLines rest <;> rfl

/-- Lines that do not read are a LoadError. -/
theorem parseImageLines_error {lines : List (List Char)} {kind : ErrorKind}
    (h : parseImageLines lines = .error kind) : kind = .loadError := by
  induction lines with
  | nil => cases h
  | cons line rest ih =>
    rw [parseImageLines_cons] at h
    cases hline : parseImageLine line with
    | error kind' =>
      rw [hline] at h
      cases h
      exact parseImageLine_error hline
    | ok b =>
      cases hrest : parseImageLines rest with
      | error kind' =>
        rw [hline, hrest] at h
        cases h
        exact ih hrest
      | ok bytes =>
        rw [hline, hrest] at h
        cases h

/-- Settles O51: the report is the record's, field by field, and an image text fails with LoadError only. -/
theorem errorCodesAreTheListedNumbers : Obligations.ErrorCodesAreTheListedNumbers := by
  refine ⟨fun s h => ?_, fun s r h => ?_, fun text => ?_⟩
  · rw [inspect_fault, h, faultReport_none]
  · rw [inspect_fault, h, faultReport_some]
    refine ⟨rfl, rfl, ?_, ?_, ?_, ?_, ?_⟩ <;> (intro hk; rw [hk]; rfl)
  · cases hp : parseImage text with
    | ok bytes => simp [imageErrorCode, hp]
    | error kind =>
      obtain rfl := parseImageLines_error hp
      simp [imageErrorCode, hp, ErrorKind.code]

/-- A blank behind a text is trimmed. -/
theorem trimBlanks_append_blank (text : List Char) {c : Char} (hc : isBlank c = true) :
    trimBlanks (text ++ [c]) = trimBlanks text := by
  unfold trimBlanks
  rw [List.dropWhile_append]
  split
  · next hempty =>
    rw [List.isEmpty_iff.1 hempty]
    simp [List.dropWhile, hc]
  · rw [List.reverse_append, List.reverse_singleton, List.singleton_append, List.dropWhile_cons_of_pos hc]

/-- What is no blank is not trimmed. -/
theorem mem_trimBlanks {text : List Char} {c : Char} (hc : c ∈ text) (hb : isBlank c = false) :
    c ∈ trimBlanks text := by
  have keep : ∀ l : List Char, c ∈ l → c ∈ l.dropWhile isBlank := by
    intro l hl
    rw [← List.takeWhile_append_dropWhile (p := isBlank) (l := l), List.mem_append] at hl
    refine hl.resolve_left fun hfront => ?_
    rw [List.mem_takeWhile_imp hfront] at hb
    cases hb
  unfold trimBlanks
  rw [List.mem_reverse]
  exact keep _ (List.mem_reverse.2 (keep _ hc))

/-- A literal with a character that is no binary digit has no value. -/
theorem binaryValue_eq_none {text : List Char} {c : Char} (hc : c ∈ text) (h0 : c ≠ '0') (h1 : c ≠ '1')
    (acc : Nat) : binaryValue acc text = none := by
  induction text generalizing acc with
  | nil => cases hc
  | cons d rest ih =>
    rw [binaryValue]
    obtain rfl | hrest := List.mem_cons.1 hc
    · rw [if_neg h0, if_neg h1]
    · rw [ih hrest, ih hrest]
      split <;> simp

/-- The binary digit of a bit. -/
def bitChar (bit : Bool) : Char := if bit then '1' else '0'

theorem binaryValue_cons (bit : Bool) (rest : List Char) (acc : Nat) :
    binaryValue acc (bitChar bit :: rest) = binaryValue (2 * acc + bit.toNat) rest := by
  cases bit <;> rfl

/-- The digits of a number's low `n` bits, the highest first, are read as their value. -/
theorem binaryValue_bits (n x acc : Nat) :
    binaryValue acc ((List.range n).map (fun k => bitChar (x.testBit (n - 1 - k)))) =
      some (2 ^ n * acc + x % 2 ^ n) := by
  induction n generalizing acc with
  | zero => simp [binaryValue, Nat.mod_one]
  | succ n ih =>
    have hrest : (List.range (n + 1)).map (fun k => bitChar (x.testBit (n + 1 - 1 - k))) =
        bitChar (x.testBit n) :: (List.range n).map (fun k => bitChar (x.testBit (n - 1 - k))) := by
      simp [List.range_succ_eq_map, Function.comp_def, Nat.sub_sub, Nat.add_comm]
    rw [hrest, binaryValue_cons, ih, Nat.toNat_testBit, Nat.mod_pow_succ, Option.some.injEq]
    ring

/-- The line of a byte's eight binary digits. -/
def byteDigits (b : Byte) : List Char := (List.range 8).map (fun k => bitChar (b.getLsbD (7 - k)))

theorem binaryByte_byteDigits (b : Byte) : binaryByte (byteDigits b) = some b := by
  have hlen : (byteDigits b).length = 8 := by simp [byteDigits]
  have hvalue : binaryValue 0 (byteDigits b) = some b.toNat := by
    refine (binaryValue_bits 8 b.toNat 0).trans ?_
    rw [Nat.mul_zero, Nat.zero_add, Nat.mod_eq_of_lt b.isLt]
  rw [binaryByte, if_pos hlen, hvalue]
  simp

theorem bitChar_ne_hash (bit : Bool) : (bitChar bit != '#') = true ∧ isBlank (bitChar bit) = false := by
  cases bit <;> decide

/-- A line is read up to its comment, blanks trimmed. -/
theorem parseImageLine_of_body {line body : List Char} {b : Byte}
    (hbody : trimBlanks (line.takeWhile (fun c => c != '#')) = body) (hb : binaryByte body = some b) :
    parseImageLine line = .ok (some b) := by
  have hne : body ≠ [] := by
    rintro rfl
    cases hb
  simp only [parseImageLine, hbody, if_neg hne, hb]

/-- Settles O46: the comment is cut off before the blanks are trimmed; a foreign character survives the trimming and
has no binary value; a malformed line is met whatever stands before it. -/
theorem imageLinesReadAsSpelled : Obligations.ImageLinesReadAsSpelled := by
  refine ⟨fun b comment => ?literal, fun comment => ⟨rfl, rfl⟩, fun line c hc hhash h0 h1 hblank => ?foreign,
    fun before after line hline => ?malformed⟩
  case literal =>
    have hdigits : ∀ c ∈ byteDigits b, (c != '#') = true ∧ isBlank c = false := by
      intro c hc
      obtain ⟨k, -, rfl⟩ := List.mem_map.1 hc
      exact bitChar_ne_hash _
    have htrim : trimBlanks (byteDigits b) = byteDigits b :=
      trimBlanks_of_no_blank fun c hc => (hdigits c hc).2
    have hfront : ∀ rest : List Char, (byteDigits b ++ rest).takeWhile (fun c => c != '#') =
        byteDigits b ++ rest.takeWhile (fun c => c != '#') := fun rest =>
      List.takeWhile_append_of_pos fun c hc => (hdigits c hc).1
    constructor
    · refine parseImageLine_of_body ?_ (binaryByte_byteDigits b)
      have hline := hfront []
      rw [List.takeWhile_nil, List.append_nil] at hline
      exact (congrArg trimBlanks hline).trans htrim
    · refine parseImageLine_of_body ?_ (binaryByte_byteDigits b)
      exact (congrArg trimBlanks (hfront _)).trans ((trimBlanks_append_blank _ rfl).trans htrim)
  case foreign =>
    have hline : line.takeWhile (fun c => c != '#') = line :=
      List.takeWhile_eq_self_iff.2 fun d hd => bne_iff_ne.2 fun h => hhash (h ▸ hd)
    have hbody : c ∈ trimBlanks line := mem_trimBlanks hc hblank
    have hvalue : binaryByte (trimBlanks line) = none := by
      rw [binaryByte, binaryValue_eq_none hbody h0 h1]
      exact ite_self none
    simp only [parseImageLine, hline, if_neg (List.ne_nil_of_mem hbody), hvalue]
  case malformed =>
    induction before with
    | nil =>
      rw [List.nil_append, parseImageLines_cons, hline]
      rfl
    | cons earlier before ih =>
      rw [List.cons_append, parseImageLines_cons, ih]
      cases hearlier : parseImageLine earlier with
      | ok b => rfl
      | error kind =>
        rw [parseImageLine_error hearlier]
        rfl

end Sys2Proof.Machine

/-! Decimal digits (R97) and the assembly spelling (R59, D20). -/

namespace Sys2Proof.Machine

open Sys2Proof

/-- A byte's rendering holds digits only. -/
theorem digit_of_mem_decimalDigits {v : Byte} {c : Char} (hc : c ∈ decimalDigits v) :
    48 ≤ c.toNat ∧ c.toNat ≤ 57 := by
  obtain ⟨n, rfl⟩ : ∃ n, c = digitChar n := by
    obtain ⟨-, h⟩ | ⟨-, -, h⟩ | ⟨-, h⟩ := decimalDigits_cases v <;> rw [h] at hc <;>
      simp only [List.mem_cons, List.not_mem_nil, or_false] at hc
    · exact ⟨_, hc⟩
    · obtain h | h := hc <;> exact ⟨_, h⟩
    · obtain h | h | h := hc <;> exact ⟨_, h⟩
  rw [digitChar_toNat]
  omega

/-- The digit 0 is that of a number divisible by 10. -/
theorem digitChar_eq_zero_iff {n : Nat} : digitChar n = '0' ↔ n % 10 = 0 := by
  constructor
  · intro h
    have hcode := digitChar_toNat n
    rw [h] at hcode
    change 48 = 48 + n % 10 at hcode
    omega
  · intro h
    rw [digitChar, h]

/-- Settles O44: in each of the three lengths the digits are the places of the value, and the first is no zero but for
the value 0. -/
theorem renderedValuesAreDecimal : Obligations.RenderedValuesAreDecimal := by
  refine ⟨fun v => ⟨?value, fun c hc => digit_of_mem_decimalDigits hc, ?leading⟩, fun term out v => ?append⟩
  case value =>
    obtain ⟨h, hd⟩ | ⟨-, h, hd⟩ | ⟨-, hd⟩ := decimalDigits_cases v <;> rw [hd] <;>
      simp only [List.foldl_cons, List.foldl_nil, digitChar_toNat] <;> omega
  case leading =>
    obtain ⟨h, hd⟩ | ⟨hlo, hhi, hd⟩ | ⟨hlo, hd⟩ := decimalDigits_cases v <;> rw [hd] <;>
      simp only [List.head?_cons, Option.some.injEq, digitChar_eq_zero_iff] <;> intro hzero
    · have hv : v = 0 := BitVec.eq_of_toNat_eq (show v.toNat = 0 by omega)
      exact ⟨hv, by rw [hv]; rfl⟩
    · omega
    · omega
  case append => simp [renderOutput]

/-- Text that can stand between commas: there is some, with no blank and no comma in it. -/
structure OperandText (text : List Char) : Prop where
  nonempty : text ≠ []
  noBlank : ∀ c ∈ text, isBlank c = false
  noComma : ∀ c ∈ text, (c == ',') = false

/-- Digits and letters are no blanks and no commas. -/
theorem notSeparator_of_ge {c : Char} (h : 48 ≤ c.toNat) : isBlank c = false ∧ (c == ',') = false := by
  have hne : ∀ d : Char, d.toNat < 48 → (c == d) = false := fun d hd =>
    beq_false_of_ne fun hcd => by
      rw [hcd] at h
      omega
  exact ⟨by simp only [isBlank, hne ' ' (by decide), hne '\t' (by decide), hne '\r' (by decide), Bool.or_self],
    hne ',' (by decide)⟩

theorem operandText_of_ge {text : List Char} (hne : text ≠ []) (h : ∀ c ∈ text, 48 ≤ c.toNat) : OperandText text where
  nonempty := hne
  noBlank c hc := (notSeparator_of_ge (h c hc)).1
  noComma c hc := (notSeparator_of_ge (h c hc)).2

theorem operandText_decimalDigits (v : Byte) : OperandText (decimalDigits v) := by
  refine operandText_of_ge ?_ fun c hc => (digit_of_mem_decimalDigits hc).1
  obtain ⟨-, h⟩ | ⟨-, -, h⟩ | ⟨-, h⟩ := decimalDigits_cases v <;> rw [h] <;> nofun

/-- The spelling of a register. -/
def regText (r : Reg) : List Char := ['R', digitChar r.val]

theorem operandText_regText (r : Reg) : OperandText (regText r) := by
  refine operandText_of_ge nofun fun c hc => ?_
  obtain rfl | rfl : c = 'R' ∨ c = digitChar r.val := by simpa [regText] using hc
  · decide
  · rw [digitChar_toNat]
    omega

theorem printReg_regByte (r : Reg) : printReg (regByte r) = some (regText r) := by
  obtain ⟨-, h⟩ | ⟨h, -⟩ | ⟨h, -⟩ := decimalDigits_cases (regByte r)
  · rw [printReg, if_pos (namesReg_regByte r), h, regByte_toNat]
    rfl
  all_goals
    rw [regByte_toNat] at h
    omega

theorem readReg_regText (r : Reg) : readReg (regText r) = some (regByte r) := by
  have hmod : r.val % 10 = r.val := by omega
  simp [readReg, regText, digitValue_digitChar, hmod, Config.nRegs, regByte]

theorem digitsValue_nil (acc : Nat) : digitsValue 10 acc [] = some acc := rfl

theorem digitsValue_cons (acc n : Nat) (rest : List Char) :
    digitsValue 10 acc (digitChar n :: rest) = digitsValue 10 (10 * acc + n % 10) rest := by
  rw [digitsValue, digitValue_digitChar]
  exact if_pos (Nat.mod_lt n (by decide))

theorem digitsValue_decimalDigits (v : Byte) : digitsValue 10 0 (decimalDigits v) = some v.toNat := by
  obtain ⟨h, hd⟩ | ⟨-, h, hd⟩ | ⟨-, hd⟩ := decimalDigits_cases v <;>
    simp only [hd, digitsValue_cons, digitsValue_nil, Option.some.injEq] <;> omega

theorem readNumber_decimalDigits (v : Byte) : readNumber (decimalDigits v) = some v := by
  unfold readNumber
  split
  · next digits h =>
    have hx : 'x' ∈ decimalDigits v := by simp [h]
    exact absurd (digit_of_mem_decimalDigits hx).2 (by decide)
  · rw [readDigits, if_neg (operandText_decimalDigits v).nonempty, digitsValue_decimalDigits]
    simp [v.isLt]

theorem splitText_of_none {sep : Char → Bool} {text : List Char} (h : ∀ c ∈ text, sep c = false) :
    splitText sep text = [text] := by
  induction text with
  | nil => rfl
  | cons c text ih =>
    rw [splitText, h c (by simp), ih fun d hd => h d (by simp [hd])]
    rfl

theorem splitText_append {sep : Char → Bool} {front : List Char} {c : Char} (rest : List Char)
    (h : ∀ c ∈ front, sep c = false) (hc : sep c = true) :
    splitText sep (front ++ c :: rest) = front :: splitText sep rest := by
  induction front with
  | nil => rw [List.nil_append, splitText, if_pos hc]
  | cons d front ih =>
    rw [List.cons_append, splitText, h d (by simp), ih fun d hd => h d (by simp [hd])]
    rfl

/-- A text that begins with no blank keeps its front. -/
theorem dropBlanks_append {front : List Char} (rest : List Char) (hne : front ≠ [])
    (h : ∀ c ∈ front, isBlank c = false) : (front ++ rest).dropWhile isBlank = front ++ rest := by
  cases front with
  | nil => exact absurd rfl hne
  | cons c front => exact List.dropWhile_cons_of_neg (by simp [h c])

/-- A text with no blank at its ends is not trimmed, whatever is between. -/
theorem trimBlanks_between {front back : List Char} (middle : List Char) (hfront : front ≠ []) (hback : back ≠ [])
    (hf : ∀ c ∈ front, isBlank c = false) (hb : ∀ c ∈ back, isBlank c = false) :
    trimBlanks (front ++ (middle ++ back)) = front ++ (middle ++ back) := by
  have hreverse : (front ++ (middle ++ back)).reverse = back.reverse ++ (front ++ middle).reverse := by simp
  unfold trimBlanks
  rw [dropBlanks_append _ hfront hf, hreverse,
    dropBlanks_append _ (by simpa using hback) (by simpa using hb), ← hreverse, List.reverse_reverse]

theorem trimBlanks_cons_blank {c : Char} (text : List Char) (hc : isBlank c = true) :
    trimBlanks (c :: text) = trimBlanks text := by
  rw [trimBlanks, List.dropWhile_cons_of_pos hc, trimBlanks]

theorem operandTexts_one {a : List Char} (ha : OperandText a) : operandTexts (' ' :: a) = [a] := by
  have hbody : trimBlanks (' ' :: a) = a :=
    (trimBlanks_cons_blank a rfl).trans (trimBlanks_of_no_blank ha.noBlank)
  simp [operandTexts, hbody, ha.nonempty, splitText_of_none ha.noComma, trimBlanks_of_no_blank ha.noBlank]

theorem operandTexts_two {a b : List Char} (ha : OperandText a) (hb : OperandText b) :
    operandTexts (' ' :: (a ++ ',' :: b)) = [a, b] := by
  have hbody : trimBlanks (' ' :: (a ++ ',' :: b)) = a ++ ',' :: b :=
    (trimBlanks_cons_blank _ rfl).trans
      (trimBlanks_between [','] ha.nonempty hb.nonempty ha.noBlank hb.noBlank)
  simp [operandTexts, hbody, splitText_append b ha.noComma (c := ',') rfl, splitText_of_none hb.noComma,
    trimBlanks_of_no_blank ha.noBlank, trimBlanks_of_no_blank hb.noBlank]

theorem mnemonicOf_ne_nil (op : Opcode) : mnemonicOf op ≠ [] := by
  cases op <;> nofun

/-- A mnemonic alone has no operands. -/
theorem readInstr_mnemonic (op : Opcode) : readInstr (mnemonicOf op) = readOperands op [] := by
  obtain ⟨hop, hblank⟩ := opcodeOfMnemonic_mnemonicOf op
  have htake : (mnemonicOf op).takeWhile (fun c => !isBlank c) = mnemonicOf op :=
    List.takeWhile_eq_self_iff.2 fun c hc => by simp [hblank c hc]
  have hdrop : (mnemonicOf op).dropWhile (fun c => !isBlank c) = [] :=
    List.dropWhile_eq_nil_iff.2 fun c hc => by simp [hblank c hc]
  simp only [readInstr, trimBlanks_of_no_blank hblank, htake, hop, hdrop]
  rfl

/-- A mnemonic, a space and operands without a blank at their end. -/
theorem readInstr_operands (op : Opcode) (front : List Char) {back : List Char} (hback : OperandText back) :
    readInstr (mnemonicOf op ++ ' ' :: (front ++ back)) = readOperands op (operandTexts (' ' :: (front ++ back))) := by
  obtain ⟨hop, hblank⟩ := opcodeOfMnemonic_mnemonicOf op
  have hno : ∀ c ∈ mnemonicOf op, (!isBlank c) = true := fun c hc => by simp [hblank c hc]
  have htrim : trimBlanks (mnemonicOf op ++ ' ' :: (front ++ back)) = mnemonicOf op ++ ' ' :: (front ++ back) :=
    trimBlanks_between (' ' :: front) (mnemonicOf_ne_nil op) hback.nonempty hblank hback.noBlank
  have htake : (mnemonicOf op ++ ' ' :: (front ++ back)).takeWhile (fun c => !isBlank c) = mnemonicOf op :=
    (List.takeWhile_append_of_pos hno).trans (List.append_nil _)
  have hdrop : (mnemonicOf op ++ ' ' :: (front ++ back)).dropWhile (fun c => !isBlank c) = ' ' :: (front ++ back) :=
    List.dropWhile_append_of_pos hno
  simp only [readInstr, htrim, htake, hop, hdrop]

/-- An instruction of one operand reads back from the operand's spelling. -/
theorem readInstr_one (op : Opcode) {a : List Char} (ha : OperandText a) :
    readInstr (mnemonicOf op ++ ' ' :: a) = readOperands op [a] := by
  rw [← operandTexts_one ha]
  exact readInstr_operands op [] ha

theorem readInstr_two (op : Opcode) {a b : List Char} (ha : OperandText a) (hb : OperandText b) :
    readInstr (mnemonicOf op ++ ' ' :: (a ++ ',' :: b)) = readOperands op [a, b] := by
  have hread := readInstr_operands op (a ++ [',']) hb
  rw [List.append_assoc, List.singleton_append, operandTexts_two ha hb] at hread
  exact hread

/-- Reading back an instruction of one register operand. -/
theorem printOne_reads_back (op : Opcode) (mk : Byte → Instr) {b : Byte} (hb : namesReg b = true)
    (hmk : ∀ text, readOperands op [text] = (readReg text).map mk) :
    ∃ text, printOne op b = some text ∧ readInstr text = some (mk b) := by
  obtain ⟨r, rfl⟩ := regByte_of_namesReg hb
  refine ⟨mnemonicOf op ++ ' ' :: regText r, by rw [printOne, printReg_regByte]; rfl, ?_⟩
  rw [readInstr_one op (operandText_regText r), hmk, readReg_regText]
  rfl

/-- Reading back an instruction of two register operands. -/
theorem printTwo_reads_back (op : Opcode) (mk : Byte → Byte → Instr) {x y : Byte}
    (hxy : (namesReg x && namesReg y) = true)
    (hmk : ∀ {a b u v}, readReg a = some u → readReg b = some v → readOperands op [a, b] = some (mk u v)) :
    ∃ text, printTwo op x y = some text ∧ readInstr text = some (mk x y) := by
  obtain ⟨hx, hy⟩ := Bool.and_eq_true_iff.1 hxy
  obtain ⟨r, rfl⟩ := regByte_of_namesReg hx
  obtain ⟨q, rfl⟩ := regByte_of_namesReg hy
  refine ⟨mnemonicOf op ++ ' ' :: (regText r ++ ',' :: regText q),
    by rw [printTwo, printReg_regByte, printReg_regByte]; rfl, ?_⟩
  rw [readInstr_two op (operandText_regText r) (operandText_regText q)]
  exact hmk (readReg_regText r) (readReg_regText q)

/-- Reading back LDI, whose second operand is a number. -/
theorem printLdi_reads_back {b : Byte} (imm : Byte) (hb : namesReg b = true) :
    ∃ text, printInstr (.ldi b imm) = some text ∧ readInstr text = some (.ldi b imm) := by
  obtain ⟨r, rfl⟩ := regByte_of_namesReg hb
  refine ⟨mnemonicOf .ldi ++ ' ' :: (regText r ++ ',' :: decimalDigits imm),
    by rw [printInstr, printReg_regByte]; rfl, ?_⟩
  rw [readInstr_two .ldi (operandText_regText r) (operandText_decimalDigits imm), readOperands, readReg_regText,
    readNumber_decimalDigits]
  rfl

/-- Settles O45: by the number and the kind of the operands, each of which reads back. -/
theorem assemblyReadsBack : Obligations.AssemblyReadsBack := by
  intro i hwf
  cases i with
  | hlt => exact ⟨_, rfl, readInstr_mnemonic .hlt⟩
  | ret => exact ⟨_, rfl, readInstr_mnemonic .ret⟩
  | push b => exact printOne_reads_back .push .push hwf fun _ => rfl
  | pop b => exact printOne_reads_back .pop .pop hwf fun _ => rfl
  | prn b => exact printOne_reads_back .prn .prn hwf fun _ => rfl
  | call b => exact printOne_reads_back .call .call hwf fun _ => rfl
  | jmp b => exact printOne_reads_back .jmp .jmp hwf fun _ => rfl
  | jeq b => exact printOne_reads_back .jeq .jeq hwf fun _ => rfl
  | jne b => exact printOne_reads_back .jne .jne hwf fun _ => rfl
  | ldi b imm => exact printLdi_reads_back imm hwf
  | mul x y => exact printTwo_reads_back .mul .mul hwf fun hx hy => by rw [readOperands, hx, hy]; rfl
  | cmp x y => exact printTwo_reads_back .cmp .cmp hwf fun hx hy => by rw [readOperands, hx, hy]; rfl

end Sys2Proof.Machine
